-- ==== Sys2Proof/Word.lean ====
section
/-! DEFINITION. The plain value types of the LAB6 CORE: its bit vectors, its REAL numbers and the records its payloads carry
(00_scope.md rules R9, R10; 10_state.md rules R25 to R29). -/

namespace Sys2Proof

/-- `BYTE = U8`, one byte of the codeword stream, and one channel of an input pixel (R25, R29). -/
abbrev Byte := BitVec 8

/-- `Codeword = U32`: one 2×2 Block in its packed form (R29, R60). -/
abbrev Codeword := BitVec 32

/-- `ACC = U64`: the accumulator the bit-field operations take and give back; a value, not a register (R29, R160). -/
abbrev Acc := BitVec 64

/-- `IDX = U4`: an index into the chroma palette (R29). -/
abbrev Idx := BitVec 4

/-- `REAL` under `NUM = exact`: an exact rational number, with exact `+ − * /` (R10, R272; the spec's
decision D1, unsafe: notes/assumptions/1.md). -/
abbrev REAL := Rat

/-- `RGBIN`: an input pixel, each channel 0 to 255 (R25). -/
structure RgbIn where
  red   : Byte
  green : Byte
  blue  : Byte
  deriving DecidableEq, Repr

/-- `RGBOUT`: an output pixel; each channel is an unbounded integer, negative values and values above 255 included (R25). -/
structure RgbOut where
  red   : Int
  green : Int
  blue  : Int
  deriving DecidableEq, Repr

/-- `FloatPixel`: three REAL channels, nominally in [0,1], never checked (R26, R30). -/
structure FloatPixel where
  r : REAL
  g : REAL
  b : REAL
  deriving DecidableEq, Repr

/-- `ChromaPixel` (CVC): luma `y`, nominally in [0,1], and chroma `pb`, `pr`, nominally in [−0.5, 0.5], never checked (R27, R30). -/
structure ChromaPixel where
  y  : REAL
  pb : REAL
  pr : REAL
  deriving DecidableEq, Repr

/-- `Block`: a 2×2 neighbourhood in raster order: top-left, top-right, bottom-left, bottom-right (R12, R28). -/
structure Block where
  pix1 : ChromaPixel
  pix2 : ChromaPixel
  pix3 : ChromaPixel
  pix4 : ChromaPixel
  deriving DecidableEq, Repr

/-- `TransformedBlock`: the average `a` and the differences `b`, `c`, `d` of the four luma values (R29). -/
structure TransformedBlock where
  a : REAL
  b : REAL
  c : REAL
  d : REAL
  deriving DecidableEq, Repr

/-- Four luma values of a Block in raster order, the operand of BTFWD and the result of BTINV; also the four chroma values
of QCH (R33). -/
structure Quad where
  v1 : REAL
  v2 : REAL
  v3 : REAL
  v4 : REAL
  deriving DecidableEq, Repr

end Sys2Proof
end

