-- ==== Sys2Proof/Config.lean ====
section
/-! DEFINITION. What an instance of the CORE fixes once and no operation writes (00_scope.md rule R7, 10_state.md rule R24).

`NUM = exact` is the type `REAL`. `TIE = away` is `Machine.roundAway`. `RGBI_W` is the width of `RgbIn`. `LANES` is not
observable (R7, 20_memory.md rule R52). `RGBO_W`, `DIM_W` and the choice of `CHROMA` instance are plain data and stand in
`Machine.Params`. The functions of the OPEN parameter `CHROMA` stand here, with no body: nothing in Lean can see
their values (43_quantizer.md rule R150; 93_implementation_defined.md U1 to U3). -/

namespace Sys2Proof

/-- The OPEN parameter `CHROMA`: a pair of functions fixed at instantiation (43_quantizer.md rule R150). -/
structure ChromaTable where
  indexOf : REAL → Idx
  ofIndex : Idx → REAL

/-- `index_of_chroma` of the instance at hand: a total function on all of REAL (R153), otherwise uninterpreted. -/
opaque Config.indexOfChroma : REAL → Idx

/-- `chroma_of_index` of the instance at hand: the 16 palette values, uninterpreted. -/
opaque Config.chromaOfIndex : Idx → REAL

/-- The pair of uninterpreted functions; `Machine.ChromaInst.table` sees to the constraints R151 and R152. -/
def Config.chroma : ChromaTable := ⟨Config.indexOfChroma, Config.chromaOfIndex⟩

end Sys2Proof
end

