-- ==== Sys2Proof/Syntax.lean ====
section
/-! DEFINITION. The operation set: one constructor per row of the opcode table, 26 operations in 7 families (30_encoding.md
rule R70). Only the four bit-field operations carry parameters in the command word; every other operand travels in the
payload (R67). -/

namespace Sys2Proof

/-- One operation of the CORE. `wd` is the width of the bit field and `off` its least-significant bit (R67). -/
inductive Instr where
  -- Family 1, Color Converter (40_color_converter.md)
  | rgb2f
  | cscfwd
  | cscinv
  | f2rgb
  -- Family 2, Block Composer (41_block_composer.md)
  | even
  | crop
  | decomp
  | comp
  -- Family 3, Block Transform (42_block_transform.md)
  | btfwd
  | btinv
  -- Family 4, Quantizer and chroma palette mapper (43_quantizer.md)
  | qa
  | dqa
  | qd
  | dqd
  | qch
  | dqch
  -- Family 5, Bit-Field Codec (44_bitfield.md)
  | getu (wd off : Nat)
  | gets (wd off : Nat)
  | setu (wd off : Nat)
  | sets (wd off : Nat)
  -- Family 6, Word Packer / Unpacker (45_word_packer.md)
  | pack
  | unpack
  | w2b
  | b2w
  -- Family 7, image-level pipeline (46_pipeline.md)
  | encode
  | decode
  deriving DecidableEq, Repr

end Sys2Proof
end

