-- ==== Sys2Proof/WellFormed.lean ====
section
/-! DEFINITION. Which terms of `Instr` the command word can carry: `wd` and `of` are "both unsigned 8-bit numbers 0 to 255
taken as they stand" (30_encoding.md rule R67). A field outside the 64-bit accumulator is NOT ill formed: it is a legal
command that ends with E_CONTRACT (R67, 44_bitfield.md rule R161). -/

namespace Sys2Proof

/-- A format F parameter fits its 8 bits of the command word (R66, R67). -/
def paramFits (n : Nat) : Bool := decide (n < 256)

/-- The instruction can be written as a command word. -/
def Instr.wellFormed : Instr → Bool
  | .rgb2f | .cscfwd | .cscinv | .f2rgb => true
  | .even | .crop | .decomp | .comp => true
  | .btfwd | .btinv => true
  | .qa | .dqa | .qd | .dqd | .qch | .dqch => true
  | .getu wd off | .gets wd off | .setu wd off | .sets wd off => paramFits wd && paramFits off
  | .pack | .unpack | .w2b | .b2w => true
  | .encode | .decode => true

end Sys2Proof
end

