-- ==== Sys2Proof/Decode.lean ====
section
/-! DEFINITION. The command word: its decoder, total on every 32-bit word and rejecting by name, and its encoder, both written
from 30_encoding.md rules R66 to R73. A command word is a 32-bit value of the request; it has no byte order (R45, R73). -/

namespace Sys2Proof

/-- Why a command word is not legal (R72). Either way the transaction ends with E_ILLEGAL (R227). -/
inductive DecodeError where
  /-- `CMD[31:24]` is none of the 26 opcodes. -/
  | unknownOpcode (op : BitVec 8)
  /-- A bit that the format requires to be zero is set: one of `CMD[23:0]` in format N, one of `CMD[23:16]` in format F. -/
  | reservedBits (cmd : BitVec 32)
  deriving DecidableEq, Repr

/-- `CMD[31:24]` (R66). -/
def cmdOp (cmd : BitVec 32) : BitVec 8 := cmd.extractLsb' 24 8

/-- `CMD[15:8]`, the field width of format F, zero-extended (R67). -/
def cmdWd (cmd : BitVec 32) : Nat := (cmd.extractLsb' 8 8).toNat

/-- `CMD[7:0]`, the field offset of format F, zero-extended (R67). -/
def cmdOff (cmd : BitVec 32) : Nat := (cmd.extractLsb' 0 8).toNat

/-- Format N: `CMD[23:0]` must be zero (R66, R72). -/
def decodeN (cmd : BitVec 32) (i : Instr) : Except DecodeError Instr :=
  if cmd.extractLsb' 0 24 = 0#24 then .ok i else .error (.reservedBits cmd)

/-- Format F: `CMD[23:16]` must be zero; `wd` and `of` are taken as they stand (R66, R67, R72). -/
def decodeF (cmd : BitVec 32) (mk : Nat → Nat → Instr) : Except DecodeError Instr :=
  if cmd.extractLsb' 16 8 = 0#8 then .ok (mk (cmdWd cmd) (cmdOff cmd)) else .error (.reservedBits cmd)

/-- The opcode map of R70; every other opcode is illegal (R72). -/
def decode (cmd : BitVec 32) : Except DecodeError Instr :=
  match (cmdOp cmd).toNat with
  | 0x10 => decodeN cmd .rgb2f
  | 0x11 => decodeN cmd .cscfwd
  | 0x12 => decodeN cmd .cscinv
  | 0x13 => decodeN cmd .f2rgb
  | 0x20 => decodeN cmd .even
  | 0x21 => decodeN cmd .crop
  | 0x22 => decodeN cmd .decomp
  | 0x23 => decodeN cmd .comp
  | 0x30 => decodeN cmd .btfwd
  | 0x31 => decodeN cmd .btinv
  | 0x40 => decodeN cmd .qa
  | 0x41 => decodeN cmd .dqa
  | 0x42 => decodeN cmd .qd
  | 0x43 => decodeN cmd .dqd
  | 0x44 => decodeN cmd .qch
  | 0x45 => decodeN cmd .dqch
  | 0x50 => decodeF cmd .getu
  | 0x51 => decodeF cmd .gets
  | 0x52 => decodeF cmd .setu
  | 0x53 => decodeF cmd .sets
  | 0x60 => decodeN cmd .pack
  | 0x61 => decodeN cmd .unpack
  | 0x62 => decodeN cmd .w2b
  | 0x63 => decodeN cmd .b2w
  | 0x70 => decodeN cmd .encode
  | 0x71 => decodeN cmd .decode
  | _ => .error (.unknownOpcode (cmdOp cmd))

/-- The 8-bit opcode: high nibble the family, low nibble the operation within it (R70). -/
def Instr.opcode : Instr → BitVec 8
  | .rgb2f => 0x10
  | .cscfwd => 0x11
  | .cscinv => 0x12
  | .f2rgb => 0x13
  | .even => 0x20
  | .crop => 0x21
  | .decomp => 0x22
  | .comp => 0x23
  | .btfwd => 0x30
  | .btinv => 0x31
  | .qa => 0x40
  | .dqa => 0x41
  | .qd => 0x42
  | .dqd => 0x43
  | .qch => 0x44
  | .dqch => 0x45
  | .getu _ _ => 0x50
  | .gets _ _ => 0x51
  | .setu _ _ => 0x52
  | .sets _ _ => 0x53
  | .pack => 0x60
  | .unpack => 0x61
  | .w2b => 0x62
  | .b2w => 0x63
  | .encode => 0x70
  | .decode => 0x71

/-- `CMD[23:0]`: zero in format N, `{00, wd, of}` in format F (R66). -/
def Instr.params : Instr → BitVec 24
  | .getu wd off | .gets wd off | .setu wd off | .sets wd off =>
      0#8 ++ BitVec.ofNat 8 wd ++ BitVec.ofNat 8 off
  | .rgb2f | .cscfwd | .cscinv | .f2rgb | .even | .crop | .decomp | .comp | .btfwd | .btinv
  | .qa | .dqa | .qd | .dqd | .qch | .dqch | .pack | .unpack | .w2b | .b2w | .encode | .decode => 0#24

/-- The command word of a well-formed instruction: `op << 24` in format N, `(op << 24) | (wd << 8) | of` in format F (R66, R70). -/
def encode (i : Instr) : BitVec 32 := i.opcode ++ i.params

/-- What the decoder reads from a word numbered as spec/opcode_table.json numbers it: one 32-bit command word, bit 0 the least
significant; the bits above `nbits` are zero (DEDUCED, safe: notes/assumptions/10.md). -/
def decodeTableWord (nbits w : Nat) : Option Instr :=
  match decode (BitVec.ofNat 32 (w % 2 ^ nbits)) with
  | .ok i => some i
  | .error _ => none

end Sys2Proof
end

