-- ==== Sys2Proof/Machine/State.lean ====
section
/-! DEFINITION. The state of the machine as plain data: the instance's static parameters, the transaction in progress, the
requests that wait, and the responses delivered (10_state.md rules R20 to R34, 70_reset_and_hazards.md rules R250 to R252).
The CORE has no register, no program counter, no flag, no control register and no memory of its own (R21 to R24, R40).
DESIGN CHOICE, notes/assumptions/14.md: the fields are the model's form of the request/response interface. -/

namespace Sys2Proof.Machine

/-- A pixel raster: a row-major sequence of pixels of one type (20_memory.md rule R41; "any pixel type T",
41_block_composer.md rule R112). -/
inductive Raster where
  | rgbIn  (px : List RgbIn)
  | rgbOut (px : List RgbOut)
  | float  (px : List FloatPixel)
  | chroma (px : List ChromaPixel)
  deriving DecidableEq, Repr

/-- An operand or result payload; the type of each operation's `ARG` and `RES` is the table of 10_state.md rule R33.
Signed values `S5`, `S64` are two's-complement bit vectors (R9). -/
inductive Payload where
  | rgbIn  (p : RgbIn)
  | rgbOut (p : RgbOut)
  | float  (p : FloatPixel)
  | chroma (p : ChromaPixel)
  /-- `(width, height)` or `(W, H)`. -/
  | dims   (width height : Nat)
  /-- `(pixels, width, height)`. -/
  | raster (px : Raster) (width height : Nat)
  /-- `(blocks, width, height)`, the operand of COMP. -/
  | grid   (blocks : List Block) (width height : Nat)
  /-- `seq Block`, the result of DECOMP. -/
  | blocks (blocks : List Block)
  /-- `seq ChromaPixel`, the result of COMP. -/
  | pixels (px : List ChromaPixel)
  /-- `(v1, v2, v3, v4)`: four REALs. -/
  | quad   (v : Quad)
  | coeffs (t : TransformedBlock)
  | real   (x : REAL)
  /-- `Z`, an unbounded integer. -/
  | int    (z : Int)
  | u9     (code : BitVec 9)
  | s5     (code : BitVec 5)
  | idx    (i : Idx)
  | u64    (value : BitVec 64)
  | s64    (value : BitVec 64)
  /-- `(value: ACC, field: U64)`, the operand of SETU. -/
  | accU   (value : Acc) (field : BitVec 64)
  /-- `(value: ACC, field: S64)`, the operand of SETS. -/
  | accS   (value : Acc) (field : BitVec 64)
  | codeword (w : Codeword)
  | block  (b : Block)
  /-- Four bytes in stream order. -/
  | bytes  (b0 b1 b2 b3 : Byte)
  /-- `(stream, width, height)`. -/
  | stream (s : List Byte) (width height : Nat)
  deriving DecidableEq, Repr

/-- A request `(CMD, ARG)` (R20). -/
structure Request where
  cmd : BitVec 32
  arg : Payload
  deriving DecidableEq, Repr

/-- A response `(STATUS, RES)`: an 8-bit status code, and the result payload where there is one (R20, R220). -/
structure Response where
  status : BitVec 8
  res    : Option Payload
  deriving DecidableEq, Repr

/-- The errors a rule can raise (60_exceptions.md rule R220); their codes are `Error.code`. -/
inductive Error where
  /-- E_FIELD_OVERFLOW: SETU, SETS, PACK (R221). -/
  | fieldOverflow
  /-- E_MALFORMED_STREAM: DECODE (R222). -/
  | malformedStream
  /-- E_RESOURCE: reserved for the collaborators, never raised by the CORE (R223). -/
  | resource
  /-- E_CONTRACT: GETU, GETS, SETU, SETS, DECOMP, COMP, F2RGB (R224). -/
  | contract
  /-- E_SIZE: CROP, DECOMP, COMP, ENCODE (R225). -/
  | size
  /-- E_ILLEGAL: a command word that is not legal (R227). -/
  | illegal
  deriving DecidableEq, Repr

/-- Which instance of the OPEN parameter `CHROMA` this CORE was built with (R150). -/
inductive ChromaInst where
  /-- The instance at hand, of which only R151 to R153 may be assumed. -/
  | bound
  /-- The reference instance REFPAL of R154, which the spec's vectors use. -/
  | refpal
  deriving DecidableEq, Repr

/-- The static parameters of the instance that are plain data (00_scope.md rule R7); no operation writes them (R24). -/
structure Params where
  chroma : ChromaInst
  /-- `RGBO_W`: `none` is the unbounded integer channel the spec's model carries, `some w` a port of `w` bits (R7, R98).
  DESIGN CHOICE, notes/assumptions/4.md. -/
  rgboW  : Option Nat
  /-- `DIM_W`: `none` are the natural numbers the spec's model carries as `width` and `height`, `some w` unsigned numbers of `w`
  bits (R7, D22). DESIGN CHOICE, notes/assumptions/11.md. -/
  dimW   : Option Nat
  deriving DecidableEq, Repr

/-- The whole state. Between two transactions `current` is `none`: the CORE is idle (R250). -/
structure State where
  /-- The static parameters of the instance. -/
  params    : Params
  /-- The transaction in progress: the request that was accepted and not yet answered (R20). -/
  current   : Option Request
  /-- Requests the host has presented that wait for acceptance, in issue order (R252). -/
  waiting   : List Request
  /-- The responses delivered to the host so far, oldest first (R20). -/
  responses : List Response
  deriving DecidableEq, Repr

/-- Why the machine could stop with a fault: never. "Nothing in this spec is treated as stuck: the CORE always answers a
request" (93_implementation_defined.md §1; R254); every error of the spec is a response, hence a next state (R226). No
constructor, so none is raised; safe. -/
inductive Fault where
  deriving DecidableEq, Repr

/-- Why a step has no meaning. -/
inductive Refusal where
  /-- Raised by an arm of `exec` whose instruction has no meaning yet (none is left); safe. -/
  | notModelled (mnemonic : String)
  /-- Raised by every meaning when it is asked to run with no transaction in progress: an operation exists only inside a
  transaction (R20). `step` never does this; safe. -/
  | noTransaction
  /-- Raised by every meaning when `ARG` is not of the type its operation fixes (R20, R33), or holds a dimension that a bounded
  `DIM_W` cannot carry (R7): the hardware's operand type does not admit such a request, so the spec gives it no effect, as with
  an input channel above 255 or an index above 15 (93_implementation_defined.md U10, U11: "refuse"). DEDUCED, safe:
  notes/assumptions/8.md and 11.md. -/
  | payloadType
  deriving DecidableEq, Repr

/-- The machine after reset: idle, nothing waiting, nothing answered (R34, R250). `RGBO_W` and `DIM_W` are unbounded, as
the spec's model has them (92_eei_decisions.md, "Parameters left OPEN"), and CHROMA is the instance at hand. DESIGN CHOICE, unsafe
where a claim is about this state alone: notes/assumptions/14.md. -/
def State.reset : State where
  params    := { chroma := .bound, rgboW := none, dimW := none }
  current   := none
  waiting   := []
  responses := []

end Sys2Proof.Machine
end

