-- ==== Sys2Proof/Machine/Ops.lean ====
section
/-! DEFINITION. The shared operations: the three functions on REAL (00_scope.md rule R10), the status codes, and the life of a
transaction: presenting a request, accepting it, answering it, raising an error (which is what the CORE has for taking an
exception), and the reset input (10_state.md rule R20, 60_exceptions.md rules R220, R226, R230, 70_reset_and_hazards.md
rules R250, R252). -/

namespace Sys2Proof.Machine

/-! ### Functions on REAL (R10) -/

/-- `clamp(x, lo, hi)`: `lo` if `x < lo`, `hi` if `x > hi`, else `x`. -/
def clamp (x lo hi : REAL) : REAL := if x < lo then lo else if hi < x then hi else x

/-- `round(x)` with `TIE = away`: the nearest integer, and of two equally near the one of larger magnitude (the spec's decision
D2; unsafe on exact ties, notes/assumptions/2.md). -/
def roundAway (x : REAL) : Int := if 0 ≤ x then (x + 1 / 2).floor else -((-x + 1 / 2).floor)

/-- `trunc(x)`: `floor(x)` for `x ≥ 0`, `ceil(x)` for `x < 0`. -/
def trunc (x : REAL) : Int := if 0 ≤ x then x.floor else x.ceil

/-! ### Status codes (R220) -/

/-- `OK = 0`: the operation completed and `RES` is valid. -/
def okCode : BitVec 8 := 0

/-- The code of each error (R220). -/
def Error.code : Error → BitVec 8
  | .fieldOverflow => 1
  | .malformedStream => 2
  | .resource => 3
  | .contract => 4
  | .size => 5
  | .illegal => 6

/-! ### The life of a transaction -/

/-- The host presents a request: it waits behind those presented before it, is never dropped and never overtakes (R252). -/
def State.present (s : State) (r : Request) : State := { s with waiting := s.waiting ++ [r] }

/-- An idle CORE accepts the oldest waiting request; one with a transaction in progress accepts none (R20, R252). -/
def State.accept (s : State) : State :=
  match s.current, s.waiting with
  | none, r :: rest => { s with current := some r, waiting := rest }
  | _, _ => s

/-- Delivering the response ends the transaction: the CORE is idle again and keeps nothing of it (R20, R21, R32). -/
def State.deliver (s : State) (r : Response) : State :=
  { s with current := none, responses := s.responses ++ [r] }

/-- Status OK with a result (R20). -/
def State.answer (s : State) (p : Payload) : State := s.deliver ⟨okCode, some p⟩

/-- `raise <E>`: the transaction ends at once with status `<E>` and no result; nothing is saved anywhere (R226). There is no
handler and so no return: the CORE is simply idle again (R230). -/
def State.raise (s : State) (e : Error) : State := s.deliver ⟨e.code, none⟩

/-- The end of a transaction whose operation computed `x`. -/
def State.finish (s : State) : Except Error Payload → State
  | .ok p => s.answer p
  | .error e => s.raise e

/-- The reset input: a transaction in progress is abandoned without a response, the CORE is idle, the static parameters are as
before (R34, R250). Requests the host still presents go on waiting (R252; DEDUCED, notes/assumptions/6.md). -/
def State.assertReset (s : State) : State := { s with current := none }

/-! ### Running an operation inside its transaction -/

/-- The dimensions a payload holds: the `width` and `height`, or `W` and `H`, of R33. -/
def Payload.dimensions : Payload → List Nat
  | .dims w h | .raster _ w h | .grid _ w h | .stream _ w h => [w, h]
  | .rgbIn _ | .rgbOut _ | .float _ | .chroma _ | .blocks _ | .pixels _ | .quad _ | .coeffs _ | .real _ | .int _ | .u9 _
  | .s5 _ | .idx _ | .u64 _ | .s64 _ | .accU _ _ | .accS _ _ | .codeword _ | .block _ | .bytes _ _ _ _ => []

/-- A dimension is one that the instance's `DIM_W` can carry: every natural number on the unbounded one, `0` to `2^w − 1` on one
of `w` bits (R7). -/
def dimFits : Option Nat → Nat → Bool
  | none, _ => true
  | some w, n => decide (n < 2 ^ w)

/-- Every dimension of the payload fits. -/
def Payload.dimsFit (p : Payload) (port : Option Nat) : Bool := p.dimensions.all (dimFits port)

/-- Runs an operation on the transaction in progress: `get` reads its operands from `ARG` and `f` computes the result or the
error from them (R20, R33). A payload of another type, or with a dimension the instance cannot carry, is no request of this
hardware (DEDUCED, safe: notes/assumptions/8.md and 11.md). -/
def transact {α : Type} (get : Payload → Option α) (f : α → Except Error Payload) (s : State) :
    Host.Outcome State Fault Refusal :=
  match s.current with
  | none => .refused .noTransaction
  | some r =>
    match if r.arg.dimsFit s.params.dimW then get r.arg else none with
    | none => .refused .payloadType
    | some a => .next (s.finish (f a))

/-- The results of a sequence of computations in order, or the first error among them: all or nothing (R208, R228). -/
def allOk {α : Type} : List (Except Error α) → Except Error (List α)
  | [] => .ok []
  | .ok a :: rest =>
    match allOk rest with
    | .ok as => .ok (a :: as)
    | .error e => .error e
  | .error e :: _ => .error e

end Sys2Proof.Machine
end

