-- ==== Sys2Proof/Machine/Operands.lean ====
section
/-! DEFINITION. The operand forms: the type of `ARG` each operation fixes, the types its `RES` can have, and the readers of
`ARG` (the table of 10_state.md rule R33). -/

namespace Sys2Proof.Machine

/-- The payload types of R33. -/
inductive Kind where
  | rgbIn | rgbOut | float | chroma | dims
  | rasterRgbIn | rasterRgbOut | rasterFloat | rasterChroma
  | grid | blocks | pixels | quad | coeffs | real | int
  | u9 | s5 | idx | u64 | s64 | accU | accS | codeword | block | bytes | stream
  deriving DecidableEq, Repr

def Raster.kind : Raster → Kind
  | .rgbIn _ => .rasterRgbIn
  | .rgbOut _ => .rasterRgbOut
  | .float _ => .rasterFloat
  | .chroma _ => .rasterChroma

def Payload.kind : Payload → Kind
  | .rgbIn _ => .rgbIn
  | .rgbOut _ => .rgbOut
  | .float _ => .float
  | .chroma _ => .chroma
  | .dims _ _ => .dims
  | .raster px _ _ => px.kind
  | .grid _ _ _ => .grid
  | .blocks _ => .blocks
  | .pixels _ => .pixels
  | .quad _ => .quad
  | .coeffs _ => .coeffs
  | .real _ => .real
  | .int _ => .int
  | .u9 _ => .u9
  | .s5 _ => .s5
  | .idx _ => .idx
  | .u64 _ => .u64
  | .s64 _ => .s64
  | .accU _ _ => .accU
  | .accS _ _ => .accS
  | .codeword _ => .codeword
  | .block _ => .block
  | .bytes _ _ _ _ => .bytes
  | .stream _ _ _ => .stream

/-- The column ARG of R33: the types of `ARG` an operation takes. CROP takes a raster of any pixel type. -/
def argKinds : Instr → List Kind
  | .rgb2f => [.rgbIn]
  | .cscfwd => [.float]
  | .cscinv => [.chroma]
  | .f2rgb => [.float]
  | .even => [.dims]
  | .crop => [.rasterRgbIn, .rasterRgbOut, .rasterFloat, .rasterChroma]
  | .decomp => [.rasterChroma]
  | .comp => [.grid]
  | .btfwd => [.quad]
  | .btinv => [.coeffs]
  | .qa => [.real]
  | .dqa => [.u9]
  | .qd => [.real]
  | .dqd => [.s5]
  | .qch => [.quad]
  | .dqch => [.idx]
  | .getu _ _ => [.u64]
  | .gets _ _ => [.u64]
  | .setu _ _ => [.accU]
  | .sets _ _ => [.accS]
  | .pack => [.block]
  | .unpack => [.codeword]
  | .w2b => [.codeword]
  | .b2w => [.bytes]
  | .encode => [.rasterRgbIn]
  | .decode => [.stream]

/-- The payload is of the type the operation fixes, and its dimensions are ones the instance's `DIM_W` carries (R7, R20, R33). -/
def accepts (ps : Params) (i : Instr) (p : Payload) : Bool := (argKinds i).contains p.kind && p.dimsFit ps.dimW

/-- The request is one the hardware's operand types admit: its command word is illegal, and then `ARG` is not examined (R72),
or `ARG` is of the type its operation fixes. -/
def Request.wellTyped (ps : Params) (r : Request) : Bool :=
  match decode r.cmd with
  | .ok i => accepts ps i r.arg
  | .error _ => true

/-! ### Readers of ARG -/

def Payload.rgbIn? : Payload → Option RgbIn
  | .rgbIn p => some p
  | _ => none

def Payload.float? : Payload → Option FloatPixel
  | .float p => some p
  | _ => none

def Payload.chroma? : Payload → Option ChromaPixel
  | .chroma p => some p
  | _ => none

def Payload.dims? : Payload → Option (Nat × Nat)
  | .dims w h => some (w, h)
  | _ => none

def Payload.raster? : Payload → Option (Raster × Nat × Nat)
  | .raster px w h => some (px, w, h)
  | _ => none

def Payload.chromaRaster? : Payload → Option (List ChromaPixel × Nat × Nat)
  | .raster (.chroma px) w h => some (px, w, h)
  | _ => none

def Payload.rgbInRaster? : Payload → Option (List RgbIn × Nat × Nat)
  | .raster (.rgbIn px) w h => some (px, w, h)
  | _ => none

def Payload.grid? : Payload → Option (List Block × Nat × Nat)
  | .grid bs w h => some (bs, w, h)
  | _ => none

def Payload.quad? : Payload → Option Quad
  | .quad v => some v
  | _ => none

def Payload.coeffs? : Payload → Option TransformedBlock
  | .coeffs t => some t
  | _ => none

def Payload.real? : Payload → Option REAL
  | .real x => some x
  | _ => none

def Payload.u9? : Payload → Option (BitVec 9)
  | .u9 c => some c
  | _ => none

def Payload.s5? : Payload → Option (BitVec 5)
  | .s5 c => some c
  | _ => none

def Payload.idx? : Payload → Option Idx
  | .idx i => some i
  | _ => none

def Payload.u64? : Payload → Option (BitVec 64)
  | .u64 v => some v
  | _ => none

def Payload.accU? : Payload → Option (Acc × BitVec 64)
  | .accU v f => some (v, f)
  | _ => none

def Payload.accS? : Payload → Option (Acc × BitVec 64)
  | .accS v f => some (v, f)
  | _ => none

def Payload.codeword? : Payload → Option Codeword
  | .codeword w => some w
  | _ => none

def Payload.block? : Payload → Option Block
  | .block b => some b
  | _ => none

def Payload.bytes? : Payload → Option (Byte × Byte × Byte × Byte)
  | .bytes b0 b1 b2 b3 => some (b0, b1, b2, b3)
  | _ => none

def Payload.stream? : Payload → Option (List Byte × Nat × Nat)
  | .stream st w h => some (st, w, h)
  | _ => none

/-! ### A payload for a command word placed by itself -/

/-- The all-zero, empty payload of the type an operation fixes: what `State.withFetchWord` puts beside a command word where no
payload of that type stands already (DESIGN CHOICE, safe: notes/assumptions/7.md). -/
def zeroArg : Instr → Payload
  | .rgb2f => .rgbIn ⟨0, 0, 0⟩
  | .cscfwd => .float ⟨0, 0, 0⟩
  | .cscinv => .chroma ⟨0, 0, 0⟩
  | .f2rgb => .float ⟨0, 0, 0⟩
  | .even => .dims 0 0
  | .crop => .raster (.rgbIn []) 0 0
  | .decomp => .raster (.chroma []) 0 0
  | .comp => .grid [] 0 0
  | .btfwd => .quad ⟨0, 0, 0, 0⟩
  | .btinv => .coeffs ⟨0, 0, 0, 0⟩
  | .qa => .real 0
  | .dqa => .u9 0
  | .qd => .real 0
  | .dqd => .s5 0
  | .qch => .quad ⟨0, 0, 0, 0⟩
  | .dqch => .idx 0
  | .getu _ _ => .u64 0
  | .gets _ _ => .u64 0
  | .setu _ _ => .accU 0 0
  | .sets _ _ => .accS 0 0
  | .pack => .block ⟨⟨0, 0, 0⟩, ⟨0, 0, 0⟩, ⟨0, 0, 0⟩, ⟨0, 0, 0⟩⟩
  | .unpack => .codeword 0
  | .w2b => .codeword 0
  | .b2w => .bytes 0 0 0 0
  | .encode => .raster (.rgbIn []) 0 0
  | .decode => .stream [] 0 0

/-- The request with another command word; its payload stays where the new operation takes it. -/
def Request.withCmd (ps : Params) (r : Request) (cmd : BitVec 32) : Request where
  cmd := cmd
  arg :=
    match decode cmd with
    | .ok i => if accepts ps i r.arg then r.arg else zeroArg i
    | .error _ => r.arg

end Sys2Proof.Machine
end

