-- ==== Sys2Proof/Machine/Flags.lean ====
section
/-! DEFINITION. The tests that decide a transaction's STATUS. STATUS is the only flag the CORE has: written by every
transaction, not sticky, read by no operation (10_state.md rule R23). Each test is one the spec names: the fit tests
(44_bitfield.md rules R162, R163), the contract tests (R161, R115), the length tests (R225, R206) and the port width
test (40_color_converter.md rule R98). -/

namespace Sys2Proof.Machine

/-- `fitsu(field, wd)`: `0 ≤ field < 2^wd` (R162). -/
def fitsu (field : Int) (wd : Nat) : Bool := decide (0 ≤ field ∧ field < 2 ^ wd)

/-- `fitss(field, wd)`: `−2^(wd−1) ≤ field ≤ 2^(wd−1) − 1` for `wd ≥ 1`; for `wd = 0` only 0 fits (R163). -/
def fitss (field : Int) (wd : Nat) : Bool :=
  if wd = 0 then decide (field = 0)
  else decide (-2 ^ (wd - 1) ≤ field ∧ field ≤ 2 ^ (wd - 1) - 1)

/-- The contract of every bit-field operation: `wd + of ≤ 64` (R161). -/
def inContract (wd off : Nat) : Bool := decide (wd + off ≤ 64)

/-- The contract of DECOMP and COMP: `width` and `height` are both even (R115). -/
def evenDims (w h : Nat) : Bool := decide (w % 2 = 0 ∧ h % 2 = 0)

/-- A channel of an `RGBOUT` result fits the port: always on the unbounded channel, `RGBO_W`-bit two's complement otherwise
(R98). -/
def channelFits : Option Nat → Int → Bool
  | none, _ => true
  | some w, z => fitss z w

/-- All three channels of an `RGBOUT` result fit the port (R98). -/
def rgbFits (port : Option Nat) (p : RgbOut) : Bool :=
  channelFits port p.red && channelFits port p.green && channelFits port p.blue

end Sys2Proof.Machine
end

