-- ==== Sys2Proof/Machine/Palette.lean ====
section
/-! DEFINITION. The chroma table a CORE was built with: the constraints every `CHROMA` meets, the reference instance REFPAL,
and the table each `ChromaInst` stands for (43_quantizer.md rules R150 to R154). -/

namespace Sys2Proof.Machine

/-- What may be assumed of a `CHROMA`: exact inverse on the 16 palette values (R151), values strictly increasing with the index
and each in [−0.5, 0.5] (R152). Totality (R153) is in the type. -/
def lawful (c : ChromaTable) : Bool :=
  ((List.range 16).all fun i =>
    let v := c.ofIndex (BitVec.ofNat 4 i)
    decide (c.indexOf v = BitVec.ofNat 4 i) && decide (-1 / 2 ≤ v ∧ v ≤ 1 / 2)) &&
  ((List.range 15).all fun i =>
    decide (c.ofIndex (BitVec.ofNat 4 i) < c.ofIndex (BitVec.ofNat 4 (i + 1))))

/-- The 16 values of REFPAL (R154). PRESUMED, unsafe: the spec takes them from general knowledge, not from its source
(notes/assumptions/9.md). -/
def refpalValues : List REAL :=
  [-35 / 100, -20 / 100, -15 / 100, -10 / 100, -77 / 1000, -55 / 1000, -33 / 1000, -11 / 1000] ++
  [11 / 1000, 33 / 1000, 55 / 1000, 77 / 1000, 10 / 100, 15 / 100, 20 / 100, 35 / 100]

/-- `|x − y|`. -/
def distance (x y : REAL) : REAL := if x < y then y - x else x - y

/-- The first index whose value is nearest to `v`, among the values of `vs`, which are numbered from `i`; `best` and `dist` are
the nearest so far and its distance. A later index wins only when it is strictly nearer: ties go to the lower index (R154). -/
def nearestFrom (v : REAL) : List REAL → Nat → Nat → REAL → Nat
  | [], _, best, _ => best
  | x :: vs, i, best, dist =>
    let d := distance v x
    if d < dist then nearestFrom v vs (i + 1) i d else nearestFrom v vs (i + 1) best dist

/-- The index into `vs` of the value nearest to `v`, computed exactly, ties to the lower index (R154). -/
def nearestIndex (v : REAL) : List REAL → Nat
  | [] => 0
  | x :: vs => nearestFrom v vs 1 0 (distance v x)

/-- REFPAL (R154). -/
def refpal : ChromaTable where
  indexOf v := BitVec.ofNat 4 (nearestIndex v refpalValues)
  ofIndex i := refpalValues.getD i.toNat 0

/-- The table of the instance. `bound` is the pair of uninterpreted functions of Config, which can be ANY lawful table; were
the pair not lawful, it would be no `CHROMA` at all, and REFPAL, which is lawful, stands in. So the table is lawful whatever
the functions are, and nothing else is known of it (R150 to R153). DESIGN CHOICE, safe as to the values:
notes/assumptions/3.md. -/
def ChromaInst.table : ChromaInst → ChromaTable
  | .bound => if lawful Config.chroma then Config.chroma else Machine.refpal
  | .refpal => Machine.refpal

end Sys2Proof.Machine
end

