-- ==== Sys2Proof/Machine/Color.lean ====
section
/-! DEFINITION. Family 1, the Color Converter: RGB2F, CSCFWD, CSCINV, F2RGB, and the pseudo-operations RGB2YPP and YPP2RGB
(40_color_converter.md rules R90 to R98, 30_encoding.md rule R75). -/

namespace Sys2Proof.Machine

/-- RGB2F: exact division by 255 (R92). -/
def rgb2f (p : RgbIn) : FloatPixel where
  r := (p.red.toNat : REAL) / 255
  g := (p.green.toNat : REAL) / 255
  b := (p.blue.toNat : REAL) / 255

/-- CSCFWD: the fixed forward matrix, the literals as the document spells them (R90, R93). -/
def cscFwd (p : FloatPixel) : ChromaPixel where
  y  := 299 / 1000 * p.r + 587 / 1000 * p.g + 114 / 1000 * p.b
  pb := -(168736 / 1000000) * p.r - 331264 / 1000000 * p.g + 1 / 2 * p.b
  pr := 1 / 2 * p.r - 418688 / 1000000 * p.g - 81312 / 1000000 * p.b

/-- CSCINV: the inverse coefficients, the literals as the document spells them; no clamp (R90, R91, R94). -/
def cscInv (p : ChromaPixel) : FloatPixel where
  r := p.y + 1402 / 1000 * p.pr
  g := p.y - 344136 / 1000000 * p.pb - 714136 / 1000000 * p.pr
  b := p.y + 1772 / 1000 * p.pb

/-- The three channels of F2RGB before the port: scale by 255 and truncate toward zero, no rounding, no clamp (R95, R96). -/
def scaleToRgb (p : FloatPixel) : RgbOut where
  red   := trunc (255 * p.r)
  green := trunc (255 * p.g)
  blue  := trunc (255 * p.b)

/-- F2RGB: a result that does not fit a bounded port is E_CONTRACT, never wrapped or saturated (R95, R98). -/
def f2rgb (port : Option Nat) (p : FloatPixel) : Except Error RgbOut :=
  let q := scaleToRgb p
  if rgbFits port q then .ok q else .error .contract

/-- RGB2YPP (R75). -/
def rgb2ypp (p : RgbIn) : ChromaPixel := cscFwd (rgb2f p)

/-- YPP2RGB (R75). -/
def ypp2rgb (port : Option Nat) (q : ChromaPixel) : Except Error RgbOut := f2rgb port (cscInv q)

/-- RGB2F (R92). -/
def execRgb2f (s : State) : Host.Outcome State Fault Refusal :=
  transact Payload.rgbIn? (fun p => .ok (.float (rgb2f p))) s

/-- CSCFWD (R93). -/
def execCscfwd (s : State) : Host.Outcome State Fault Refusal :=
  transact Payload.float? (fun p => .ok (.chroma (cscFwd p))) s

/-- CSCINV (R94). -/
def execCscinv (s : State) : Host.Outcome State Fault Refusal :=
  transact Payload.chroma? (fun p => .ok (.float (cscInv p))) s

/-- F2RGB (R95, R98). -/
def execF2rgb (s : State) : Host.Outcome State Fault Refusal :=
  transact Payload.float? (fun p => (f2rgb s.params.rgboW p).map .rgbOut) s

end Sys2Proof.Machine
end

