-- ==== Sys2Proof/Machine/Composer.lean ====
section
/-! DEFINITION. Family 2, the Block Composer: EVEN, CROP, DECOMP, COMP (41_block_composer.md rules R110 to R118; the index
formulas are 20_memory.md rules R41 and R42). It moves pixels and never looks inside one. -/

namespace Sys2Proof.Machine

/-- `n & ~1`: the low bit cleared (R110). -/
def evenTrunc (n : Nat) : Nat := n - n % 2

/-- The raster of `W` columns and `H` rows whose pixel at row `i`, column `j` is `f i j`, where there is one (R41). -/
def gather {α : Type} (W H : Nat) (f : Nat → Nat → Option α) : List α :=
  (List.range H).flatMap fun i => (List.range W).filterMap fun j => f i j

/-- CROP on a sequence of pixels of any type: the pixel at row `i`, column `j` of the result is `pixels[i*width + j]`, read
with the ORIGINAL stride (R112). -/
def crop {α : Type} (px : List α) (width height : Nat) : Except Error (List α × Nat × Nat) :=
  if px.length = width * height then
    let W := evenTrunc width
    let H := evenTrunc height
    .ok (gather W H fun i j => px[i * width + j]?, W, H)
  else .error .size

/-- CROP on a raster payload (R112: "any pixel type T"). DESIGN CHOICE, unsafe: on a bounded port, a channel of an `RGBOUT`
operand that does not fit the port is handed back as it stands, neither refused nor E_CONTRACT; R98 asks for E_CONTRACT of F2RGB
results only, and the spec leaves this operand open (notes/assumptions/17.md). -/
def cropRaster (width height : Nat) : Raster → Except Error Payload
  | .rgbIn px => (crop px width height).map fun (out, W, H) => .raster (.rgbIn out) W H
  | .rgbOut px => (crop px width height).map fun (out, W, H) => .raster (.rgbOut out) W H
  | .float px => (crop px width height).map fun (out, W, H) => .raster (.float out) W H
  | .chroma px => (crop px width height).map fun (out, W, H) => .raster (.chroma out) W H

/-- The Block whose top-left pixel is at row `i`, column `j` of a raster of `width` columns (R116). -/
def blockAt (px : List ChromaPixel) (width i j : Nat) : Option Block :=
  match px[i * width + j]?, px[i * width + (j + 1)]?, px[(i + 1) * width + j]?, px[(i + 1) * width + (j + 1)]? with
  | some pix1, some pix2, some pix3, some pix4 => some ⟨pix1, pix2, pix3, pix4⟩
  | _, _, _, _ => none

/-- DECOMP: the checks of R115 in their order, then one Block for each `(i, j)`, `i` and `j` in steps of 2, row by row; block
row `bi` has `i = 2*bi`, block column `bj` has `j = 2*bj` (R116). -/
def decomp (px : List ChromaPixel) (width height : Nat) : Except Error (List Block) :=
  if evenDims width height then
    if px.length = width * height then
      .ok (gather (width / 2) (height / 2) fun bi bj => blockAt px width (2 * bi) (2 * bj))
    else .error .size
  else .error .contract

/-- The pixel of a Block at row `i`, column `j` of its raster: `i` and `j` odd or even say which of the four (R12). -/
def Block.pixelAt (b : Block) (i j : Nat) : ChromaPixel :=
  if i % 2 = 0 then
    if j % 2 = 0 then b.pix1 else b.pix2
  else
    if j % 2 = 0 then b.pix3 else b.pix4

/-- COMP: the checks of R115 in their order, then each Block's four pixels at their row-major positions: the pixel at row `i`,
column `j` is one of Block `(i/2)*(width/2) + j/2` (R42, R117: every element is written exactly once). DEDUCED,
safe: notes/assumptions/12.md. -/
def comp (blocks : List Block) (width height : Nat) : Except Error (List ChromaPixel) :=
  if evenDims width height then
    if blocks.length = (width / 2) * (height / 2) then
      .ok (gather width height fun i j =>
        blocks[(i / 2) * (width / 2) + j / 2]?.map fun b => Block.pixelAt b i j)
    else .error .size
  else .error .contract

/-- EVEN (R110). -/
def execEven (s : State) : Host.Outcome State Fault Refusal :=
  transact Payload.dims? (fun (w, h) => .ok (.dims (evenTrunc w) (evenTrunc h))) s

/-- CROP (R112). -/
def execCrop (s : State) : Host.Outcome State Fault Refusal :=
  transact Payload.raster? (fun (px, w, h) => cropRaster w h px) s

/-- DECOMP (R116). -/
def execDecomp (s : State) : Host.Outcome State Fault Refusal :=
  transact Payload.chromaRaster? (fun (px, w, h) => (decomp px w h).map .blocks) s

/-- COMP (R117). -/
def execComp (s : State) : Host.Outcome State Fault Refusal :=
  transact Payload.grid? (fun (bs, w, h) => (comp bs w h).map .pixels) s

end Sys2Proof.Machine
end

