-- ==== Sys2Proof/Machine/Transform.lean ====
section
/-! DEFINITION. Family 3, the Block Transform: BTFWD, BTINV (42_block_transform.md rules R130 to R133). The signs are those of
the document's "precisely" form (90_conflicts.md C1). -/

namespace Sys2Proof.Machine

/-- BTFWD: `b` bottom row minus top row, `c` right column minus left column, `d` main diagonal minus anti-diagonal (R130). -/
def btFwd (y : Quad) : TransformedBlock where
  a := (y.v4 + y.v3 + y.v2 + y.v1) / 4
  b := (y.v4 + y.v3 - y.v2 - y.v1) / 4
  c := (y.v4 - y.v3 + y.v2 - y.v1) / 4
  d := (y.v4 - y.v3 - y.v2 + y.v1) / 4

/-- BTINV; nothing is clamped (R131). -/
def btInv (t : TransformedBlock) : Quad where
  v1 := t.a - t.b - t.c + t.d
  v2 := t.a - t.b + t.c - t.d
  v3 := t.a + t.b - t.c - t.d
  v4 := t.a + t.b + t.c + t.d

/-- BTFWD (R130). -/
def execBtfwd (s : State) : Host.Outcome State Fault Refusal :=
  transact Payload.quad? (fun y => .ok (.coeffs (btFwd y))) s

/-- BTINV (R131). -/
def execBtinv (s : State) : Host.Outcome State Fault Refusal :=
  transact Payload.coeffs? (fun t => .ok (.quad (btInv t))) s

end Sys2Proof.Machine
end

