-- ==== Sys2Proof/Machine/Quantizer.lean ====
section
/-! DEFINITION. Family 4, the Quantizer and chroma palette mapper: QA, DQA, QD, DQD, QCH, DQCH (43_quantizer.md rules R140 to
R147). The chroma table is an argument of the two chroma functions (R150). -/

namespace Sys2Proof.Machine

/-- QA: scale by 511 and round; no clamp on this side, so any integer can result (R141; 90_conflicts.md C5). -/
def qa (a : REAL) : Int := roundAway (a * 511)

/-- DQA: divide by 511, then clamp to [0, 1] (R142). -/
def dqa (code : BitVec 9) : REAL := clamp ((code.toNat : REAL) / 511) 0 1

/-- QD: clamp the REAL value to [−0.3, 0.3] first, then scale by 50 and round; −15 to 15 (R143). -/
def qd (x : REAL) : Int := roundAway (clamp x (-3 / 10) (3 / 10) * 50)

/-- DQD: divide by 50, then clamp to [−0.3, 0.3]; only −16 is changed by the clamp (R144). -/
def dqd (code : BitVec 5) : REAL := clamp ((code.toInt : REAL) / 50) (-3 / 10) (3 / 10)

/-- QCH: the palette index of the exact mean of four chroma values (R145). -/
def qch (c : ChromaTable) (v : Quad) : Idx := c.indexOf ((v.v1 + v.v2 + v.v3 + v.v4) / 4)

/-- DQCH: the palette value of an index (R146). -/
def dqch (c : ChromaTable) (i : Idx) : REAL := c.ofIndex i

/-- QA (R141). -/
def execQa (s : State) : Host.Outcome State Fault Refusal :=
  transact Payload.real? (fun a => .ok (.int (qa a))) s

/-- DQA (R142). -/
def execDqa (s : State) : Host.Outcome State Fault Refusal :=
  transact Payload.u9? (fun code => .ok (.real (dqa code))) s

/-- QD; its result is an `S5`, always −15 to 15 (R143). -/
def execQd (s : State) : Host.Outcome State Fault Refusal :=
  transact Payload.real? (fun x => .ok (.s5 (BitVec.ofInt 5 (qd x)))) s

/-- DQD (R144). -/
def execDqd (s : State) : Host.Outcome State Fault Refusal :=
  transact Payload.s5? (fun code => .ok (.real (dqd code))) s

/-- QCH (R145). -/
def execQch (s : State) : Host.Outcome State Fault Refusal :=
  transact Payload.quad? (fun v => .ok (.idx (qch s.params.chroma.table v))) s

/-- DQCH (R146). -/
def execDqch (s : State) : Host.Outcome State Fault Refusal :=
  transact Payload.idx? (fun i => .ok (.real (dqch s.params.chroma.table i))) s

end Sys2Proof.Machine
end

