-- ==== Sys2Proof/Machine/Bitfield.lean ====
section
/-! DEFINITION. Family 5, the Bit-Field Codec: GETU, GETS, SETU, SETS on a 64-bit accumulator (44_bitfield.md rules R160 to
R170). The field is `value[of+wd−1 : of]`; the contract is tested first, then the fit. -/

namespace Sys2Proof.Machine

/-- `(value >> of) mod 2^wd` (R164). -/
def fieldBits (wd off : Nat) (value : Acc) : Nat := (value.toNat >>> off) % 2 ^ wd

/-- The field's bits sign-extended from its top bit; 0 for an empty field (R165). -/
def fieldSigned (wd off : Nat) (value : Acc) : Int :=
  let u := fieldBits wd off value
  if 1 ≤ wd ∧ u.testBit (wd - 1) = true then (u : Int) - 2 ^ wd else (u : Int)

/-- `(2^wd − 1) << of`, 64 bits wide (R166). -/
def fieldMask (wd off : Nat) : Acc := BitVec.ofNat 64 (2 ^ wd - 1) <<< off

/-- `(value & ~mask) | (u << of)`: exactly the bits of the field are replaced (R166, R170), which is what makes `fieldBits` and
`fieldSigned` read back what was inserted and every disjoint field as before (R168). -/
def insertBits (wd off : Nat) (value : Acc) (u : Nat) : Acc :=
  (value &&& ~~~ fieldMask wd off) ||| (BitVec.ofNat 64 u <<< off)

/-- GETU (R161, R164). -/
def getu (wd off : Nat) (value : Acc) : Except Error (BitVec 64) :=
  if inContract wd off then .ok (BitVec.ofNat 64 (fieldBits wd off value)) else .error .contract

/-- GETS; the result is an `S64` (R161, R165). -/
def gets (wd off : Nat) (value : Acc) : Except Error (BitVec 64) :=
  if inContract wd off then .ok (BitVec.ofInt 64 (fieldSigned wd off value)) else .error .contract

/-- SETU of an integer field: contract, then fit, then the insertion (R161, R162, R166). In PACK the field is any `Z`. -/
def setu (wd off : Nat) (value : Acc) (field : Int) : Except Error Acc :=
  if inContract wd off then
    if fitsu field wd then .ok (insertBits wd off value field.toNat) else .error .fieldOverflow
  else .error .contract

/-- SETS of an integer field: contract, then fit, then the insertion of its `wd`-bit two's-complement pattern
`field mod 2^wd` (R161, R163, R167). -/
def sets (wd off : Nat) (value : Acc) (field : Int) : Except Error Acc :=
  if inContract wd off then
    if fitss field wd then .ok (insertBits wd off value (field % 2 ^ wd).toNat) else .error .fieldOverflow
  else .error .contract

/-- GETU (R164). -/
def execGetu (wd off : Nat) (s : State) : Host.Outcome State Fault Refusal :=
  transact Payload.u64? (fun v => (getu wd off v).map .u64) s

/-- GETS (R165). -/
def execGets (wd off : Nat) (s : State) : Host.Outcome State Fault Refusal :=
  transact Payload.u64? (fun v => (gets wd off v).map .s64) s

/-- SETU; the field is a `U64` (R166). -/
def execSetu (wd off : Nat) (s : State) : Host.Outcome State Fault Refusal :=
  transact Payload.accU? (fun (v, f) => (setu wd off v (f.toNat : Int)).map .u64) s

/-- SETS; the field is an `S64` (R167). -/
def execSets (wd off : Nat) (s : State) : Host.Outcome State Fault Refusal :=
  transact Payload.accS? (fun (v, f) => (sets wd off v f.toInt).map .u64) s

end Sys2Proof.Machine
end

