-- ==== Sys2Proof/Machine/Packer.lean ====
section
/-! DEFINITION. Family 6, the Word Packer / Unpacker: PACK, UNPACK, W2B, B2W (45_word_packer.md rules R180 to R185). The layout
of the Codeword is 30_encoding.md rule R60: a 9 bits at 23, b, c, d 5 bits at 18, 13, 8, pb index 4 bits at 4, pr index 4
bits at 0. -/

namespace Sys2Proof.Machine

/-- The luma values of a Block in raster order (R12). -/
def lumas (b : Block) : Quad := ⟨b.pix1.y, b.pix2.y, b.pix3.y, b.pix4.y⟩

/-- The `pb` values of a Block in raster order. -/
def pbs (b : Block) : Quad := ⟨b.pix1.pb, b.pix2.pb, b.pix3.pb, b.pix4.pb⟩

/-- The `pr` values of a Block in raster order. -/
def prs (b : Block) : Quad := ⟨b.pix1.pr, b.pix2.pr, b.pix3.pr, b.pix4.pr⟩

/-- PACK: the six insertions into an accumulator that starts at 0, in the order of the document's table; an error of one ends
the whole transaction (R181, R226). -/
def pack (c : ChromaTable) (blk : Block) : Except Error Codeword := do
  let pbi := qch c (pbs blk)
  let pri := qch c (prs blk)
  let t := btFwd (lumas blk)
  let acc ← setu 9 23 0 (qa t.a)
  let acc ← sets 5 18 acc (qd t.b)
  let acc ← sets 5 13 acc (qd t.c)
  let acc ← sets 5 8 acc (qd t.d)
  let acc ← setu 4 4 acc (pbi.toNat : Int)
  let acc ← setu 4 0 acc (pri.toNat : Int)
  pure (acc.extractLsb' 0 32)

/-- UNPACK: the six extractions from `zext_64(w)`, all within the contract, the dequantizers and the inverse transform; the
four pixels share one `(pb, pr)` (R182). -/
def unpack (c : ChromaTable) (w : Codeword) : Block :=
  let acc : Acc := w.setWidth 64
  let a := dqa (BitVec.ofNat 9 (fieldBits 9 23 acc))
  let b := dqd (BitVec.ofInt 5 (fieldSigned 5 18 acc))
  let cc := dqd (BitVec.ofInt 5 (fieldSigned 5 13 acc))
  let d := dqd (BitVec.ofInt 5 (fieldSigned 5 8 acc))
  let y := btInv ⟨a, b, cc, d⟩
  let pb := dqch c (BitVec.ofNat 4 (fieldBits 4 4 acc))
  let pr := dqch c (BitVec.ofNat 4 (fieldBits 4 0 acc))
  ⟨⟨y.v1, pb, pr⟩, ⟨y.v2, pb, pr⟩, ⟨y.v3, pb, pr⟩, ⟨y.v4, pb, pr⟩⟩

/-- W2B: the big-endian serialization, byte 0 first in the stream (R44, R183). -/
def w2b (w : Codeword) : Byte × Byte × Byte × Byte :=
  (w.extractLsb' 24 8, w.extractLsb' 16 8, w.extractLsb' 8 8, w.extractLsb' 0 8)

/-- B2W: `{b0, b1, b2, b3}` (R184). -/
def b2w (b0 b1 b2 b3 : Byte) : Codeword := b0 ++ b1 ++ b2 ++ b3

/-- PACK (R181). -/
def execPack (s : State) : Host.Outcome State Fault Refusal :=
  transact Payload.block? (fun blk => (pack s.params.chroma.table blk).map .codeword) s

/-- UNPACK (R182). -/
def execUnpack (s : State) : Host.Outcome State Fault Refusal :=
  transact Payload.codeword? (fun w => .ok (.block (unpack s.params.chroma.table w))) s

/-- W2B (R183). -/
def execW2b (s : State) : Host.Outcome State Fault Refusal :=
  transact Payload.codeword? (fun w =>
    let (b0, b1, b2, b3) := w2b w
    .ok (.bytes b0 b1 b2 b3)) s

/-- B2W (R184). -/
def execB2w (s : State) : Host.Outcome State Fault Refusal :=
  transact Payload.bytes? (fun (b0, b1, b2, b3) => .ok (.codeword (b2w b0 b1 b2 b3))) s

end Sys2Proof.Machine
end

