-- ==== Sys2Proof/Machine/Pipeline.lean ====
section
/-! DEFINITION. Family 7, the image-level pipeline: ENCODE and DECODE (46_pipeline.md rules R200 to R210). The codeword byte
stream holds word `k` big-endian at bytes `4k` to `4k+3` (20_memory.md rules R43, R44). -/

namespace Sys2Proof.Machine

/-- The bytes a sequence of words is written as: `MemWrite(4*k, 4, w)` for word `k` (R11, R43, R44). -/
def streamOf : List Codeword → List Byte
  | [] => []
  | w :: ws =>
    let (b0, b1, b2, b3) := w2b w
    b0 :: b1 :: b2 :: b3 :: streamOf ws

/-- The whole words of a stream: `MemRead(4*k, 4)` for word `k` (R11, R43, R44). -/
def wordsOf : List Byte → List Codeword
  | b0 :: b1 :: b2 :: b3 :: rest => b2w b0 b1 b2 b3 :: wordsOf rest
  | _ => []

/-- The Codewords of a list of Blocks in block order, or the first error: all or nothing (R200, R208, R228). -/
def packAll (c : ChromaTable) (blocks : List Block) : Except Error (List Codeword) := allOk (blocks.map (pack c))

/-- ENCODE: crop, convert, decompose, pack each Block in row-major block order, serialize (R200). -/
def encodeImage (c : ChromaTable) (px : List RgbIn) (width height : Nat) :
    Except Error (List Byte × Nat × Nat) := do
  let (cropped, W, H) ← crop px width height
  let blocks ← decomp (cropped.map rgb2ypp) W H
  let words ← packAll c blocks
  pure (streamOf words, W, H)

/-- DECODE: the length check, then the count check against the even-truncated dimensions, then unpack each word, compose,
convert each pixel (R205, R206, R207). -/
def decodeImage (c : ChromaTable) (port : Option Nat) (stream : List Byte) (width height : Nat) :
    Except Error (List RgbOut × Nat × Nat) :=
  if stream.length % 4 ≠ 0 then .error .malformedStream
  else
    let W := evenTrunc width
    let H := evenTrunc height
    if stream.length / 4 ≠ (W / 2) * (H / 2) then .error .malformedStream
    else do
      let cvc ← comp ((wordsOf stream).map (unpack c)) W H
      let out ← allOk (cvc.map (ypp2rgb port))
      pure (out, W, H)

/-- ENCODE (R200). -/
def execEncode (s : State) : Host.Outcome State Fault Refusal :=
  transact Payload.rgbInRaster? (fun (px, w, h) =>
    (encodeImage s.params.chroma.table px w h).map fun (stream, W, H) => .stream stream W H) s

/-- DECODE (R205). -/
def execDecode (s : State) : Host.Outcome State Fault Refusal :=
  transact Payload.stream? (fun (stream, w, h) =>
    (decodeImage s.params.chroma.table s.params.rgboW stream w h).map fun (px, W, H) => .raster (.rgbOut px) W H) s

end Sys2Proof.Machine
end

