-- ==== Sys2Proof/Machine/Dispatch.lean ====
section
/-! DEFINITION. What each operation does with the transaction in progress: one arm per constructor of Instr. -/

namespace Sys2Proof.Machine

def exec (i : Instr) (s : State) : Host.Outcome State Fault Refusal :=
  match i with
  | .rgb2f => Sys2Proof.Machine.execRgb2f s
  | .cscfwd => Sys2Proof.Machine.execCscfwd s
  | .cscinv => Sys2Proof.Machine.execCscinv s
  | .f2rgb => Sys2Proof.Machine.execF2rgb s
  | .even => Sys2Proof.Machine.execEven s
  | .crop => Sys2Proof.Machine.execCrop s
  | .decomp => Sys2Proof.Machine.execDecomp s
  | .comp => Sys2Proof.Machine.execComp s
  | .btfwd => Sys2Proof.Machine.execBtfwd s
  | .btinv => Sys2Proof.Machine.execBtinv s
  | .qa => Sys2Proof.Machine.execQa s
  | .dqa => Sys2Proof.Machine.execDqa s
  | .qd => Sys2Proof.Machine.execQd s
  | .dqd => Sys2Proof.Machine.execDqd s
  | .qch => Sys2Proof.Machine.execQch s
  | .dqch => Sys2Proof.Machine.execDqch s
  | .getu wd off => Sys2Proof.Machine.execGetu wd off s
  | .gets wd off => Sys2Proof.Machine.execGets wd off s
  | .setu wd off => Sys2Proof.Machine.execSetu wd off s
  | .sets wd off => Sys2Proof.Machine.execSets wd off s
  | .pack => Sys2Proof.Machine.execPack s
  | .unpack => Sys2Proof.Machine.execUnpack s
  | .w2b => Sys2Proof.Machine.execW2b s
  | .b2w => Sys2Proof.Machine.execB2w s
  | .encode => Sys2Proof.Machine.execEncode s
  | .decode => Sys2Proof.Machine.execDecode s

end Sys2Proof.Machine
end

