-- ==== Sys2Proof/Machine/Step.lean ====
section
/-! DEFINITION. One step of the CORE is one transaction: it accepts the oldest waiting request if it is idle, decodes the
command word, and answers (10_state.md rule R20, 30_encoding.md rule R72, 70_reset_and_hazards.md rule R252). A CORE with no
request stays idle (DESIGN CHOICE, safe: notes/assumptions/5.md), and a transaction is one step (DEDUCED, safe:
notes/assumptions/16.md). -/

namespace Sys2Proof.Machine

/-- One transaction. An illegal command word ends with E_ILLEGAL, whatever `ARG` holds (R72, R227). -/
def step (s : State) : Host.Outcome State Fault Refusal :=
  let a := s.accept
  match a.current with
  | none => .next a
  | some r =>
    match decode r.cmd with
    | .ok i => exec i a
    | .error _ => .next (a.raise .illegal)

/-- `s` with the command word `w` where `step` takes its next one: in the request in progress, else in the oldest waiting one,
else in a request presented for it. The payload beside it stays if it is one the operation takes; else it is the
all-zero, empty one of that type. -/
def State.withFetchWord (s : State) (nbits w : Nat) : State :=
  let cmd := BitVec.ofNat 32 (w % 2 ^ nbits)
  match s.current, s.waiting with
  | some r, _ => { s with current := some (r.withCmd s.params cmd) }
  | none, r :: rest => { s with waiting := r.withCmd s.params cmd :: rest }
  | none, [] => { s with waiting := [Request.withCmd s.params ⟨cmd, .dims 0 0⟩ cmd] }

end Sys2Proof.Machine
end

