-- ==== Sys2Proof/Safety.lean ====
section
/-! DEFINITION. What a safe state is, in the terms the claims use: the instance is one the spec admits, every request not yet
answered is one the hardware's operand types admit, and every response delivered has the form the spec gives responses
(10_state.md rules R20, R33; 40_color_converter.md rule R98; 60_exceptions.md rules R220, R226). -/

namespace Sys2Proof.Machine

/-- `RGBO_W` is unbounded or at least 11 bits (00_scope.md rule R7, R98). -/
def Params.admissible (p : Params) : Bool :=
  match p.rgboW with
  | none => true
  | some w => decide (11 ≤ w)

/-- A response of the CORE: status 0 with a result, or one of the five error codes the CORE produces with none (R20, R220,
R223, R226). -/
def Response.wellFormed (r : Response) : Bool :=
  match r.res with
  | some _ => decide (r.status = 0#8)
  | none => decide (r.status = 1#8 ∨ r.status = 2#8 ∨ r.status = 4#8 ∨ r.status = 5#8 ∨ r.status = 6#8)

/-- The invariant of the machine. -/
def State.inv (s : State) : Bool :=
  s.params.admissible && s.current.all (Request.wellTyped s.params) && s.waiting.all (Request.wellTyped s.params) &&
    s.responses.all Response.wellFormed

/-- The step does not stop: it neither faults nor refuses. -/
def State.safe (s : State) : Prop := ∃ t, step s = .next t

end Sys2Proof.Machine
end

