-- ==== Sys2Proof/Certificates/Slice0/Obligations.lean ====
section
/-! DEFINITION. The statements for the provers: what the operations and the machine do, from the numbered rules of spec/. A
statement of an operation's result is the equality of the whole next state, so it is also its frame: the static parameters and
the waiting requests are as before, the transaction is over, and exactly one response is appended. -/

namespace Sys2Proof.Claims

open Sys2Proof.Machine

/-- A transaction is in progress whose operand payload is `p` (10_state.md rule R20), and its dimensions, if it has any, are ones
the instance's `DIM_W` carries: all of them on the unbounded one (00_scope.md rule R7). -/
def running (s : State) (p : Payload) : Prop := (∃ cmd, s.current = some ⟨cmd, p⟩) ∧ p.dimsFit s.params.dimW = true

/-- `s` after its transaction answered `STATUS = OK` (code 0) with the result `p`. -/
def answered (s : State) (p : Payload) : State :=
  { s with current := none, responses := s.responses ++ [⟨0#8, some p⟩] }

/-- `s` after its transaction ended with the error status `code` and no result. -/
def failed (s : State) (code : BitVec 8) : State :=
  { s with current := none, responses := s.responses ++ [⟨code, none⟩] }

/-- E_FIELD_OVERFLOW, E_MALFORMED_STREAM, E_CONTRACT, E_SIZE, E_ILLEGAL (60_exceptions.md rule R220). -/
def eFieldOverflow : BitVec 8 := 1#8
def eMalformedStream : BitVec 8 := 2#8
def eContract : BitVec 8 := 4#8
def eSize : BitVec 8 := 5#8
def eIllegal : BitVec 8 := 6#8

/-- `z` is the integer nearest to `x`, and of two equally near the one of larger magnitude (00_scope.md rule R10). -/
def nearestAway (x : REAL) (z : Int) : Prop := |x - z| ≤ 1 / 2 ∧ (|x - z| = 1 / 2 → |x| < |(z : REAL)|)

/-- `z` is `x` with its fractional part discarded (00_scope.md rule R10). -/
def truncated (x : REAL) (z : Int) : Prop :=
  (0 ≤ x → (z : REAL) ≤ x ∧ x < z + 1) ∧ (x < 0 → x ≤ z ∧ (z : REAL) - 1 < x)

/-- `x` limited to [lo, hi]. -/
def limited (x lo hi : REAL) : REAL := max lo (min x hi)

/-- `z` is a value of a two's-complement port of `w` bits (00_scope.md rule R9). -/
def fitsPort (w : Nat) (z : Int) : Prop := -2 ^ (w - 1) ≤ z ∧ z ≤ 2 ^ (w - 1) - 1

/-- `z` fits "a two's-complement field of `wd` bits"; of the empty field only 0 is a value (44_bitfield.md rule R163). -/
def fitsField (wd : Nat) (z : Int) : Prop := if wd = 0 then z = 0 else -2 ^ (wd - 1) ≤ z ∧ z ≤ 2 ^ (wd - 1) - 1

/-- The legal-opcode lists of 30_encoding.md rule R70, format N and format F. -/
def opcodesN : List (BitVec 8) :=
  [0x10, 0x11, 0x12, 0x13, 0x20, 0x21, 0x22, 0x23, 0x30, 0x31, 0x40, 0x41, 0x42, 0x43, 0x44, 0x45,
   0x60, 0x61, 0x62, 0x63, 0x70, 0x71]
def opcodesF : List (BitVec 8) := [0x50, 0x51, 0x52, 0x53]

/-- The column RES of 10_state.md rule R33. CROP gives a raster of the type it was given. -/
def resKinds (i : Instr) (arg : Kind) : List Kind :=
  match i with
  | .rgb2f => [.float]
  | .cscfwd => [.chroma]
  | .cscinv => [.float]
  | .f2rgb => [.rgbOut]
  | .even => [.dims]
  | .crop => [arg]
  | .decomp => [.blocks]
  | .comp => [.pixels]
  | .btfwd => [.coeffs]
  | .btinv => [.quad]
  | .qa => [.int]
  | .dqa => [.real]
  | .qd => [.s5]
  | .dqd => [.real]
  | .qch => [.idx]
  | .dqch => [.real]
  | .getu _ _ => [.u64]
  | .gets _ _ => [.s64]
  | .setu _ _ => [.u64]
  | .sets _ _ => [.u64]
  | .pack => [.codeword]
  | .unpack => [.block]
  | .w2b => [.bytes]
  | .b2w => [.codeword]
  | .encode => [.stream]
  | .decode => [.rasterRgbOut]

/-- The column "possible error status" of 10_state.md rule R33; DECODE can also hand on the E_CONTRACT of F2RGB on a port
narrower than any the spec admits (R98, R226). -/
def errorCodes (i : Instr) : List (BitVec 8) :=
  match i with
  | .f2rgb => [eContract]
  | .crop => [eSize]
  | .decomp => [eContract, eSize]
  | .comp => [eContract, eSize]
  | .getu _ _ => [eContract]
  | .gets _ _ => [eContract]
  | .setu _ _ => [eContract, eFieldOverflow]
  | .sets _ _ => [eContract, eFieldOverflow]
  | .pack => [eFieldOverflow]
  | .encode => [eSize]
  | .decode => [eMalformedStream]
  | .rgb2f | .cscfwd | .cscinv | .even | .btfwd | .btinv | .qa | .dqa | .qd | .dqd | .qch | .dqch
  | .unpack | .w2b | .b2w => []

end Sys2Proof.Claims

open Sys2Proof Sys2Proof.Machine Sys2Proof.Claims

/-! ### The command word (30_encoding.md rules R66 to R73) -/

/-- R70: each of the 26 command words, as the opcode map writes it, decodes to its operation; the four of format F with their
parameters. -/
def Obligations.OpcodeMapDecodes : Prop :=
  decode 0x10000000#32 = .ok .rgb2f ∧ decode 0x11000000#32 = .ok .cscfwd ∧ decode 0x12000000#32 = .ok .cscinv ∧
  decode 0x13000000#32 = .ok .f2rgb ∧ decode 0x20000000#32 = .ok .even ∧ decode 0x21000000#32 = .ok .crop ∧
  decode 0x22000000#32 = .ok .decomp ∧ decode 0x23000000#32 = .ok .comp ∧ decode 0x30000000#32 = .ok .btfwd ∧
  decode 0x31000000#32 = .ok .btinv ∧ decode 0x40000000#32 = .ok .qa ∧ decode 0x41000000#32 = .ok .dqa ∧
  decode 0x42000000#32 = .ok .qd ∧ decode 0x43000000#32 = .ok .dqd ∧ decode 0x44000000#32 = .ok .qch ∧
  decode 0x45000000#32 = .ok .dqch ∧ decode 0x50000917#32 = .ok (.getu 9 23) ∧ decode 0x51000512#32 = .ok (.gets 5 18) ∧
  decode 0x52000938#32 = .ok (.setu 9 56) ∧ decode 0x5300013F#32 = .ok (.sets 1 63) ∧ decode 0x60000000#32 = .ok .pack ∧
  decode 0x61000000#32 = .ok .unpack ∧ decode 0x62000000#32 = .ok .w2b ∧ decode 0x63000000#32 = .ok .b2w ∧
  decode 0x70000000#32 = .ok .encode ∧ decode 0x71000000#32 = .ok .decode

/-- Decoding the command word of a well-formed instruction gives it back, with `wd` and `of` at every value (R66, R67, R70). -/
def Obligations.EncodeThenDecode : Prop :=
  ∀ i : Instr, i.wellFormed = true → decode (encode i) = .ok i

/-- Every legal command word has one meaning and is the word of it: no bit is dropped (R66, R72). -/
def Obligations.DecodeThenEncode : Prop :=
  ∀ (cmd : BitVec 32) (i : Instr), decode cmd = .ok i → encode i = cmd ∧ i.wellFormed = true

/-- R72: which command words are legal. -/
def Obligations.LegalCommandWords : Prop :=
  ∀ cmd : BitVec 32, (∃ i, decode cmd = .ok i) ↔
    (cmd.extractLsb' 24 8 ∈ opcodesN ∧ cmd.extractLsb' 0 24 = 0#24) ∨
    (cmd.extractLsb' 24 8 ∈ opcodesF ∧ cmd.extractLsb' 16 8 = 0#8)

/-! ### The machine (10_state.md, 60_exceptions.md, 70_reset_and_hazards.md) -/

/-- A step runs the decoded instruction: of the request in progress, or, in an idle CORE, of the oldest waiting request, which
it accepts (R20, R252). -/
def Obligations.StepRunsDecodedInstruction : Prop :=
  (∀ (s : State) (r : Request) (i : Instr), s.current = some r → decode r.cmd = .ok i → step s = exec i s) ∧
  (∀ (s : State) (r : Request) (rest : List Request) (i : Instr), s.current = none → s.waiting = r :: rest →
    decode r.cmd = .ok i → step s = exec i { s with current := some r, waiting := rest })

/-- R72, R227: a request whose command word is illegal ends with E_ILLEGAL and no result, whatever ARG holds. -/
def Obligations.IllegalCommandFails : Prop :=
  ∀ (s : State) (cmd : BitVec 32) (arg : Payload) (rest : List Request), (∀ i, decode cmd ≠ .ok i) →
    (s.current = some ⟨cmd, arg⟩ → step s = .next (failed s eIllegal)) ∧
    (s.current = none → s.waiting = ⟨cmd, arg⟩ :: rest →
      step s = .next (failed { s with waiting := rest } eIllegal))

/-- A word placed with `withFetchWord` is what the next step runs, and nothing else of the machine is changed. -/
def Obligations.PlacedWordRunsNext : Prop :=
  ∀ (s : State) (i : Instr), i.wellFormed = true →
    decodeTableWord 32 (encode i).toNat = some i ∧
    ∃ p, accepts s.params i p = true ∧
      step (s.withFetchWord 32 (encode i).toNat) =
        exec i { s with current := some ⟨encode i, p⟩,
                        waiting := if s.current.isSome then s.waiting else s.waiting.tail }

/-- R34, R250: after reset the CORE is idle, with nothing waiting and nothing answered; with no request it stays idle; and the
reset input abandons a transaction in progress without a response and leaves the static parameters. That an idle step changes
nothing, and that waiting requests go on waiting through a reset, are the model's reading (notes/assumptions/5.md, 6.md). -/
def Obligations.ResetIsIdle : Prop :=
  State.reset.current = none ∧ State.reset.waiting = [] ∧ State.reset.responses = [] ∧
  (∀ s : State, s.current = none → s.waiting = [] → step s = .next s) ∧
  (∀ s : State, s.assertReset = { s with current := none })

/-- The invariant holds at reset. -/
def Obligations.ResetMeetsInvariant : Prop := State.reset.inv = true

/-- The invariant (admissible port, typed requests, responses of the spec's form) is kept by every step (R20, R220, R226). -/
def Obligations.StepKeepsInvariant : Prop :=
  ∀ s t : State, s.inv = true → step s = .next t → t.inv = true

/-- R254: in every state of the invariant a step answers a next state: the CORE never stops. -/
def Obligations.InvariantStatesAreSafe : Prop :=
  ∀ s : State, s.inv = true → s.safe

/-- R20, R50, R252: the responses to a sequence of requests are, in issue order, one function of each request and the static
parameters alone; nothing else is left of the run. That a transaction is one step, and that requests wait in a list, are the
model's choices (notes/assumptions/16.md and 6.md). -/
def Obligations.ResponsesAreAFunctionOfRequests : Prop :=
  ∃ respond : Params → Request → Response, ∀ (ps : Params) (rs : List Request) (out : List Response),
    (∀ r ∈ rs, r.wellTyped ps = true) →
    core.run rs.length { params := ps, current := none, waiting := rs, responses := out } =
      .next { params := ps, current := none, waiting := [], responses := out ++ rs.map (respond ps) }

/-- Exactly the operand types of R33 run: an operation answers a next state if and only if it has a transaction in progress
whose payload is of its type, with dimensions the instance's `DIM_W` carries. The only-if half, that any other payload and a
missing transaction give no next state, is the model's refusal (DEDUCED from 93_implementation_defined.md U10, U11 and from R7:
notes/assumptions/8.md and 11.md). -/
def Obligations.RunsExactlyOnItsOperandType : Prop :=
  ∀ (i : Instr) (s : State), (∃ t, exec i s = .next t) ↔ ∃ r, s.current = some r ∧ accepts s.params i r.arg = true

/-- R21, R24, R226: what every operation leaves unchanged, error or not: the parameters, the waiting requests, the earlier
responses; the transaction is over. -/
def Obligations.OperationFrame : Prop :=
  ∀ (i : Instr) (s t : State), exec i s = .next t →
    t.params = s.params ∧ t.waiting = s.waiting ∧ t.current = none ∧ ∃ r, t.responses = s.responses ++ [r]

/-- R33, R220: the result of an operation is of the type its row gives, and its error status is one its row gives, on every
port the spec admits; the dimensions of a result are ones a bounded `DIM_W` (R7) carries. -/
def Obligations.ResultTypesAndErrorCodes : Prop :=
  ∀ (i : Instr) (s t : State) (r : Request), s.params.admissible = true → s.current = some r → exec i s = .next t →
    ∃ a, t.responses = s.responses ++ [a] ∧
      ((a.status = 0#8 ∧ ∃ p, a.res = some p ∧ p.kind ∈ resKinds i r.arg.kind ∧ p.dimsFit s.params.dimW = true) ∨
       (a.res = none ∧ a.status ∈ errorCodes i))

/-- R48, R50: the response depends on the request and the static parameters only; what else the state holds is not seen. -/
def Obligations.TransactionsDoNotInteract : Prop :=
  ∀ (i : Instr) (s₁ s₂ t₁ t₂ : State), s₁.params = s₂.params → s₁.current = s₂.current →
    exec i s₁ = .next t₁ → exec i s₂ = .next t₂ →
    ∃ r, t₁.responses = s₁.responses ++ [r] ∧ t₂.responses = s₂.responses ++ [r]

/-- R252: a request presented while others are to be served waits: the step is the same and the request stands last. -/
def Obligations.PresentedRequestWaits : Prop :=
  ∀ (s t : State) (r : Request), s.current.isSome = true ∨ s.waiting ≠ [] → step s = .next t →
    step (s.present r) = .next (t.present r)

/-- `p` is the pixel at row `i`, column `j` of the image that the stream `st` of declared width `w` holds: 255 times CSCINV of
the pixel that UNPACK gives there, truncated (46_pipeline.md rule R205). -/
def Sys2Proof.Claims.isDecodedPixel (c : ChromaTable) (st : List Byte) (w i j : Nat) (p : RgbOut) : Prop :=
  ∃ (k : Nat) (b0 b1 b2 b3 : Byte) (q : FloatPixel), k = (i / 2) * (w / 2) + j / 2 ∧
    st[4 * k]? = some b0 ∧ st[4 * k + 1]? = some b1 ∧ st[4 * k + 2]? = some b2 ∧ st[4 * k + 3]? = some b3 ∧
    q = cscInv (Block.pixelAt (unpack c (b0 ++ b1 ++ b2 ++ b3)) i j) ∧
    truncated (255 * q.r) p.red ∧ truncated (255 * q.g) p.green ∧ truncated (255 * q.b) p.blue

/-- R98, R271: an RGBOUT result of F2RGB or DECODE on a bounded port fits it and is the truncated value itself: nothing is
wrapped or saturated. Every bounded port is meant, also one narrower than the spec admits, on which DECODE can fail. -/
def Obligations.OutputChannelsFitThePort : Prop :=
  ∀ (s t : State) (n : Nat) (a : Response), s.params.rgboW = some n → 1 ≤ n → t.responses = s.responses ++ [a] →
    (∀ q p, running s (.float q) → exec .f2rgb s = .next t → a.res = some (.rgbOut p) →
      (fitsPort n p.red ∧ fitsPort n p.green ∧ fitsPort n p.blue) ∧
      truncated (255 * q.r) p.red ∧ truncated (255 * q.g) p.green ∧ truncated (255 * q.b) p.blue) ∧
    (∀ st w h px W H, running s (.stream st w h) → exec .decode s = .next t →
      a.res = some (.raster (.rgbOut px) W H) →
      (∀ p ∈ px, fitsPort n p.red ∧ fitsPort n p.green ∧ fitsPort n p.blue) ∧
      ∀ i j, i < H → j < W → ∃ p, px[i * W + j]? = some p ∧ isDecodedPixel s.params.chroma.table st w i j p)

/-! ### Functions on REAL (00_scope.md rule R10) -/

/-- R10 under `TIE = away` and `NUM = exact`, the spec's decisions D1 and D2: `round` is nearest with ties away from zero,
`trunc` discards the fraction, `clamp` limits. -/
def Obligations.RoundTruncClamp : Prop :=
  (∀ x : REAL, nearestAway x (roundAway x)) ∧ (∀ x : REAL, truncated x (trunc x)) ∧
  (∀ x lo hi : REAL, lo ≤ hi → clamp x lo hi = limited x lo hi)

/-! ### Color Converter (40_color_converter.md) -/

/-- R92. -/
def Obligations.Rgb2fDividesBy255 : Prop :=
  encode .rgb2f = 0x10000000#32 ∧
  (∀ (s : State) (p : RgbIn), running s (.rgbIn p) →
    exec .rgb2f s = .next (answered s (.float
      ⟨(p.red.toNat : REAL) / 255, (p.green.toNat : REAL) / 255, (p.blue.toNat : REAL) / 255⟩))) ∧
  (∀ c : Byte, 0 ≤ (c.toNat : REAL) / 255 ∧ (c.toNat : REAL) / 255 ≤ 1)

/-- R93, with the literals of R90. -/
def Obligations.CscfwdIsTheFixedMatrix : Prop :=
  encode .cscfwd = 0x11000000#32 ∧
  ∀ (s : State) (p : FloatPixel), running s (.float p) →
    exec .cscfwd s = .next (answered s (.chroma
      ⟨299 / 1000 * p.r + 587 / 1000 * p.g + 114 / 1000 * p.b,
       -(168736 / 1000000) * p.r - 331264 / 1000000 * p.g + 1 / 2 * p.b,
       1 / 2 * p.r - 418688 / 1000000 * p.g - 81312 / 1000000 * p.b⟩))

/-- R93, the corner cases the spec derives: the range of the result on channels in [0,1], and a grey pixel. -/
def Obligations.CscfwdKeepsNominalRange : Prop :=
  (∀ p : FloatPixel, 0 ≤ p.r → p.r ≤ 1 → 0 ≤ p.g → p.g ≤ 1 → 0 ≤ p.b → p.b ≤ 1 →
    0 ≤ (cscFwd p).y ∧ (cscFwd p).y ≤ 1 ∧ -1 / 2 ≤ (cscFwd p).pb ∧ (cscFwd p).pb ≤ 1 / 2 ∧
    -1 / 2 ≤ (cscFwd p).pr ∧ (cscFwd p).pr ≤ 1 / 2) ∧
  (∀ t : REAL, cscFwd ⟨t, t, t⟩ = ⟨t, 0, 0⟩)

/-- R94, with the literals of R90. -/
def Obligations.CscinvIsTheInverseFormula : Prop :=
  encode .cscinv = 0x12000000#32 ∧
  (∀ (s : State) (p : ChromaPixel), running s (.chroma p) →
    exec .cscinv s = .next (answered s (.float
      ⟨p.y + 1402 / 1000 * p.pr, p.y - 344136 / 1000000 * p.pb - 714136 / 1000000 * p.pr, p.y + 1772 / 1000 * p.pb⟩))) ∧
  (∀ (s : State) (y : REAL), running s (.chroma ⟨y, 0, 0⟩) → exec .cscinv s = .next (answered s (.float ⟨y, y, y⟩)))

/-- R95, R98: scaled by 255 and truncated toward zero, never rounded or clamped; E_CONTRACT exactly when a channel does not fit
a bounded port, and never on the unbounded one. -/
def Obligations.F2rgbTruncatesOrFails : Prop :=
  encode .f2rgb = 0x13000000#32 ∧
  ∀ (s : State) (p : FloatPixel) (zr zg zb : Int), running s (.float p) →
    truncated (255 * p.r) zr → truncated (255 * p.g) zg → truncated (255 * p.b) zb →
    (s.params.rgboW = none → exec .f2rgb s = .next (answered s (.rgbOut ⟨zr, zg, zb⟩))) ∧
    (∀ w, s.params.rgboW = some w → 1 ≤ w → fitsPort w zr → fitsPort w zg → fitsPort w zb →
      exec .f2rgb s = .next (answered s (.rgbOut ⟨zr, zg, zb⟩))) ∧
    (∀ w, s.params.rgboW = some w → 1 ≤ w → ¬ (fitsPort w zr ∧ fitsPort w zg ∧ fitsPort w zb) →
      exec .f2rgb s = .next (failed s eContract))

/-- Vector CSC-17: F2RGB undoes RGB2F exactly, on every admissible port. -/
def Obligations.F2rgbUndoesRgb2f : Prop :=
  ∀ (s₁ s₂ : State) (p : RgbIn), running s₁ (.rgbIn p) → s₂.params.admissible = true →
    ∃ q, exec .rgb2f s₁ = .next (answered s₁ (.float q)) ∧
      (running s₂ (.float q) →
        exec .f2rgb s₂ = .next (answered s₂ (.rgbOut ⟨p.red.toNat, p.green.toNat, p.blue.toNat⟩)))

/-- R97: CSCINV after CSCFWD is not the identity; the composite matrix, exactly. -/
def Obligations.ColorMapsAreNotInverse : Prop :=
  ∀ (s₁ s₂ : State) (p : FloatPixel), running s₁ (.float p) →
    ∃ q, exec .cscfwd s₁ = .next (answered s₁ (.chroma q)) ∧
      (running s₂ (.chroma q) → exec .cscinv s₂ = .next (answered s₂ (.float
        ⟨p.r - 576 / 1000000000 * p.g + 576 / 1000000000 * p.b,
         132096 / 1000000000000 * p.r + (1 + 41472 / 1000000000000) * p.g - 173568 / 1000000000000 * p.b,
         -(192 / 1000000000) * p.r + 192 / 1000000000 * p.g + p.b⟩)))

/-! ### Block Composer (41_block_composer.md) -/

/-- R110: `W = width − (width mod 2)`, `H = height − (height mod 2)`. -/
def Obligations.EvenClearsTheLowBit : Prop :=
  encode .even = 0x20000000#32 ∧
  ∀ (s : State) (w h : Nat), running s (.dims w h) →
    exec .even s = .next (answered s (.dims (w - w % 2) (h - h % 2)))

/-- CROP on rasters of one pixel type: E_SIZE on a wrong length, else the pixel at row `i`, column `j` is that of the operand,
read with the original stride. -/
def Sys2Proof.Claims.cropOf {α : Type} (mk : List α → Raster) : Prop :=
  ∀ (s : State) (px : List α) (w h : Nat), running s (.raster (mk px) w h) →
    (px.length ≠ w * h → exec .crop s = .next (failed s eSize)) ∧
    (px.length = w * h → ∃ out : List α,
      exec .crop s = .next (answered s (.raster (mk out) (w - w % 2) (h - h % 2))) ∧
      out.length = (w - w % 2) * (h - h % 2) ∧
      ∀ i j, i < h - h % 2 → j < w - w % 2 → ∃ p, out[i * (w - w % 2) + j]? = some p ∧ px[i * w + j]? = some p)

/-- R111, R112: CROP, for each pixel type; E_SIZE is the spec's decision D14. Two clauses rest on the model and not on these
rules: that CROP takes rasters of FloatPixels is DEDUCED (notes/assumptions/15.md), and that on a bounded port it hands back
RGBOUT channels which the port cannot carry is a DESIGN CHOICE (notes/assumptions/17.md). -/
def Obligations.CropKeepsTheEvenPart : Prop :=
  encode .crop = 0x21000000#32 ∧
  cropOf Raster.rgbIn ∧ cropOf Raster.rgbOut ∧ cropOf Raster.float ∧ cropOf Raster.chroma

/-- R115, R116: DECOMP: E_CONTRACT on an odd dimension, then E_SIZE on a wrong length, else Block `(i/2)*(width/2) + j/2` holds
the four pixels at `(i,j), (i,j+1), (i+1,j), (i+1,j+1)`. -/
def Obligations.DecompBuildsBlocks : Prop :=
  encode .decomp = 0x22000000#32 ∧
  ∀ (s : State) (px : List ChromaPixel) (w h : Nat), running s (.raster (.chroma px) w h) →
    (w % 2 = 1 ∨ h % 2 = 1 → exec .decomp s = .next (failed s eContract)) ∧
    (w % 2 = 0 → h % 2 = 0 → px.length ≠ w * h → exec .decomp s = .next (failed s eSize)) ∧
    (w % 2 = 0 → h % 2 = 0 → px.length = w * h → ∃ bs : List Block,
      exec .decomp s = .next (answered s (.blocks bs)) ∧ bs.length = (w / 2) * (h / 2) ∧
      ∀ bi bj, bi < h / 2 → bj < w / 2 → ∃ b, bs[bi * (w / 2) + bj]? = some b ∧
        px[2 * bi * w + 2 * bj]? = some b.pix1 ∧ px[2 * bi * w + (2 * bj + 1)]? = some b.pix2 ∧
        px[(2 * bi + 1) * w + 2 * bj]? = some b.pix3 ∧ px[(2 * bi + 1) * w + (2 * bj + 1)]? = some b.pix4)

/-- R115, R117: COMP: the same checks, else each Block's four pixels stand at their row-major positions. -/
def Obligations.CompPlacesPixels : Prop :=
  encode .comp = 0x23000000#32 ∧
  ∀ (s : State) (bs : List Block) (w h : Nat), running s (.grid bs w h) →
    (w % 2 = 1 ∨ h % 2 = 1 → exec .comp s = .next (failed s eContract)) ∧
    (w % 2 = 0 → h % 2 = 0 → bs.length ≠ (w / 2) * (h / 2) → exec .comp s = .next (failed s eSize)) ∧
    (w % 2 = 0 → h % 2 = 0 → bs.length = (w / 2) * (h / 2) → ∃ px : List ChromaPixel,
      exec .comp s = .next (answered s (.pixels px)) ∧ px.length = w * h ∧
      ∀ bi bj, bi < h / 2 → bj < w / 2 → ∃ b, bs[bi * (w / 2) + bj]? = some b ∧
        px[2 * bi * w + 2 * bj]? = some b.pix1 ∧ px[2 * bi * w + (2 * bj + 1)]? = some b.pix2 ∧
        px[(2 * bi + 1) * w + 2 * bj]? = some b.pix3 ∧ px[(2 * bi + 1) * w + (2 * bj + 1)]? = some b.pix4)

/-- R118: the round trip, in both directions. -/
def Obligations.DecompCompRoundTrip : Prop :=
  (∀ (s₁ s₂ : State) (px : List ChromaPixel) (w h : Nat), w % 2 = 0 → h % 2 = 0 → px.length = w * h →
    running s₁ (.raster (.chroma px) w h) →
    ∃ bs, exec .decomp s₁ = .next (answered s₁ (.blocks bs)) ∧
      (running s₂ (.grid bs w h) → exec .comp s₂ = .next (answered s₂ (.pixels px)))) ∧
  (∀ (s₁ s₂ : State) (bs : List Block) (w h : Nat), w % 2 = 0 → h % 2 = 0 → bs.length = (w / 2) * (h / 2) →
    running s₁ (.grid bs w h) →
    ∃ px, exec .comp s₁ = .next (answered s₁ (.pixels px)) ∧
      (running s₂ (.raster (.chroma px) w h) → exec .decomp s₂ = .next (answered s₂ (.blocks bs))))

/-! ### Block Transform (42_block_transform.md) -/

/-- R130: the "precisely" form. -/
def Obligations.BtfwdCoefficients : Prop :=
  encode .btfwd = 0x30000000#32 ∧
  ∀ (s : State) (y1 y2 y3 y4 : REAL), running s (.quad ⟨y1, y2, y3, y4⟩) →
    exec .btfwd s = .next (answered s (.coeffs
      ⟨(y4 + y3 + y2 + y1) / 4, (y4 + y3 - y2 - y1) / 4, (y4 - y3 + y2 - y1) / 4, (y4 - y3 - y2 + y1) / 4⟩))

/-- R131, with the range of its results. -/
def Obligations.BtinvLumas : Prop :=
  encode .btinv = 0x31000000#32 ∧
  ∀ (s : State) (a b c d : REAL), running s (.coeffs ⟨a, b, c, d⟩) →
    ∃ y : Quad, exec .btinv s = .next (answered s (.quad y)) ∧
      y = ⟨a - b - c + d, a - b + c - d, a + b - c - d, a + b + c + d⟩ ∧
      (0 ≤ a → a ≤ 1 → |b| ≤ 3 / 10 → |c| ≤ 3 / 10 → |d| ≤ 3 / 10 →
        ∀ v ∈ [y.v1, y.v2, y.v3, y.v4], -9 / 10 ≤ v ∧ v ≤ 19 / 10)

/-- R132: the two maps are exact inverses, both ways. -/
def Obligations.BlockTransformInverse : Prop :=
  (∀ (s₁ s₂ : State) (y : Quad), running s₁ (.quad y) →
    ∃ t, exec .btfwd s₁ = .next (answered s₁ (.coeffs t)) ∧
      (running s₂ (.coeffs t) → exec .btinv s₂ = .next (answered s₂ (.quad y)))) ∧
  (∀ (s₁ s₂ : State) (t : TransformedBlock), running s₁ (.coeffs t) →
    ∃ y, exec .btinv s₁ = .next (answered s₁ (.quad y)) ∧
      (running s₂ (.quad y) → exec .btfwd s₂ = .next (answered s₂ (.coeffs t))))

/-! ### Quantizer (43_quantizer.md) -/

/-- R141: scaled by 511 and rounded, not clamped; in 0 to 511 exactly for `−1/1022 < a < 1 + 1/1022`. The tie rule is the
spec's decision D2, the missing clamp D23. -/
def Obligations.QaRoundsWithoutClamp : Prop :=
  encode .qa = 0x40000000#32 ∧
  ∀ (s : State) (a : REAL), running s (.real a) →
    ∃ z : Int, exec .qa s = .next (answered s (.int z)) ∧ nearestAway (a * 511) z ∧
      ((0 ≤ z ∧ z ≤ 511) ↔ (-1 / 1022 < a ∧ a < 1 + 1 / 1022))

/-- R142: divided by 511, then clamped to [0,1]; 0 gives 0 and 511 gives 1. -/
def Obligations.DqaDividesAndClamps : Prop :=
  encode .dqa = 0x41000000#32 ∧
  (∀ (s : State) (code : BitVec 9), running s (.u9 code) →
    exec .dqa s = .next (answered s (.real (limited ((code.toNat : REAL) / 511) 0 1)))) ∧
  (∀ code : BitVec 9, limited ((code.toNat : REAL) / 511) 0 1 = (code.toNat : REAL) / 511)

/-- R143: the real value is clamped first, then scaled by 50 and rounded; always −15 to 15. The tie rule is the spec's
decision D2. -/
def Obligations.QdClampsThenRounds : Prop :=
  encode .qd = 0x42000000#32 ∧
  ∀ (s : State) (x : REAL), running s (.real x) →
    ∃ code : BitVec 5, exec .qd s = .next (answered s (.s5 code)) ∧
      nearestAway (limited x (-3 / 10) (3 / 10) * 50) code.toInt ∧ -15 ≤ code.toInt ∧ code.toInt ≤ 15

/-- R144: divided by 50, then clamped to [−0.3, 0.3]; the clamp changes only −16, which decodes as −15 does. -/
def Obligations.DqdDividesAndClamps : Prop :=
  encode .dqd = 0x43000000#32 ∧
  (∀ (s : State) (code : BitVec 5), running s (.s5 code) →
    exec .dqd s = .next (answered s (.real (limited ((code.toInt : REAL) / 50) (-3 / 10) (3 / 10))))) ∧
  (∀ code : BitVec 5, limited ((code.toInt : REAL) / 50) (-3 / 10) (3 / 10) =
    if code.toInt = -16 then -3 / 10 else (code.toInt : REAL) / 50)

/-- R145: the index of the exact mean; four equal values give their own index; the mean of values in [−0.5, 0.5] is in it. -/
def Obligations.QchIndexesTheMean : Prop :=
  encode .qch = 0x44000000#32 ∧
  (∀ (s : State) (v1 v2 v3 v4 : REAL), running s (.quad ⟨v1, v2, v3, v4⟩) →
    exec .qch s = .next (answered s (.idx (s.params.chroma.table.indexOf ((v1 + v2 + v3 + v4) / 4))))) ∧
  (∀ (s : State) (t : REAL), running s (.quad ⟨t, t, t, t⟩) →
    exec .qch s = .next (answered s (.idx (s.params.chroma.table.indexOf t)))) ∧
  (∀ v1 v2 v3 v4 : REAL, |v1| ≤ 1 / 2 → |v2| ≤ 1 / 2 → |v3| ≤ 1 / 2 → |v4| ≤ 1 / 2 → |(v1 + v2 + v3 + v4) / 4| ≤ 1 / 2)

/-- R146: the palette value of the index. -/
def Obligations.DqchLooksUpTheValue : Prop :=
  encode .dqch = 0x45000000#32 ∧
  ∀ (s : State) (i : Idx), running s (.idx i) →
    exec .dqch s = .next (answered s (.real (s.params.chroma.table.ofIndex i)))

/-- R151: whatever the instance, the two functions of CHROMA are exact inverses over the 16 palette values. -/
def Obligations.ChromaInverseOnPalette : Prop :=
  ∀ ci : ChromaInst,
    (∀ i : Idx, ci.table.indexOf (ci.table.ofIndex i) = i) ∧
    (∀ i j : Idx, ci.table.ofIndex i = ci.table.ofIndex j → i = j) ∧
    (∀ v : REAL, (∃ i, v = ci.table.ofIndex i) → ci.table.ofIndex (ci.table.indexOf v) = v)

/-- R152, the spec's reading D12: strictly increasing, within [−0.5, 0.5]. -/
def Obligations.ChromaMonotonicInRange : Prop :=
  ∀ ci : ChromaInst,
    (∀ i j : Idx, i.toNat < j.toNat → ci.table.ofIndex i < ci.table.ofIndex j) ∧
    (∀ i : Idx, -1 / 2 ≤ ci.table.ofIndex i ∧ ci.table.ofIndex i ≤ 1 / 2)

/-- R147, the bounds the spec derives: half a quantization step each, and the excess beyond the clamp. -/
def Obligations.QuantizationLossBounds : Prop :=
  (∀ a : REAL, 0 ≤ a → a ≤ 1 → |dqa (BitVec.ofInt 9 (qa a)) - a| ≤ 1 / 1022) ∧
  (∀ x : REAL, |x| ≤ 3 / 10 → |dqd (BitVec.ofInt 5 (qd x)) - x| ≤ 1 / 100) ∧
  (∀ x : REAL, 3 / 10 < |x| → |dqd (BitVec.ofInt 5 (qd x)) - x| = |x| - 3 / 10)

/-! ### Bit-Field Codec (44_bitfield.md) -/

/-- The command word of a format F operation (30_encoding.md rule R66). -/
def Sys2Proof.Claims.formatF (op : BitVec 32) (wd off : Nat) : BitVec 32 :=
  (op <<< 24) ||| (BitVec.ofNat 32 wd <<< 8) ||| BitVec.ofNat 32 off

/-- R161, R164: `(value >> of) mod 2^wd`, E_CONTRACT when `wd + of > 64`. -/
def Obligations.GetuExtractsUnsigned : Prop :=
  ∀ wd off : Nat,
    (wd < 256 → off < 256 → encode (.getu wd off) = formatF 0x50#32 wd off) ∧
    ∀ (s : State) (v : Acc), running s (.u64 v) →
      (wd + off ≤ 64 →
        exec (.getu wd off) s = .next (answered s (.u64 (BitVec.ofNat 64 (v.toNat / 2 ^ off % 2 ^ wd))))) ∧
      (64 < wd + off → exec (.getu wd off) s = .next (failed s eContract))

/-- R161, R165: the same bits, sign-extended from the top bit of the field; the value fits an S64. -/
def Obligations.GetsExtractsSigned : Prop :=
  ∀ wd off : Nat,
    (wd < 256 → off < 256 → encode (.gets wd off) = formatF 0x51#32 wd off) ∧
    ∀ (s : State) (v : Acc), running s (.u64 v) →
      (wd + off ≤ 64 → ∃ r : BitVec 64, exec (.gets wd off) s = .next (answered s (.s64 r)) ∧
        r.toInt = (if 1 ≤ wd ∧ v.getLsbD (off + wd - 1) = true then
          ((v.toNat / 2 ^ off % 2 ^ wd : Nat) : Int) - 2 ^ wd else ((v.toNat / 2 ^ off % 2 ^ wd : Nat) : Int))) ∧
      (64 < wd + off → exec (.gets wd off) s = .next (failed s eContract))

/-- R161, R162, R166: E_CONTRACT first, then E_FIELD_OVERFLOW when `field ≥ 2^wd`, else exactly the bits of the field are those
of `field`. -/
def Obligations.SetuInsertsUnsigned : Prop :=
  ∀ wd off : Nat,
    (wd < 256 → off < 256 → encode (.setu wd off) = formatF 0x52#32 wd off) ∧
    ∀ (s : State) (v : Acc) (f : BitVec 64), running s (.accU v f) →
      (64 < wd + off → exec (.setu wd off) s = .next (failed s eContract)) ∧
      (wd + off ≤ 64 → 2 ^ wd ≤ f.toNat → exec (.setu wd off) s = .next (failed s eFieldOverflow)) ∧
      (wd + off ≤ 64 → f.toNat < 2 ^ wd → ∃ r : Acc, exec (.setu wd off) s = .next (answered s (.u64 r)) ∧
        ∀ k < 64, r.getLsbD k = if off ≤ k ∧ k < off + wd then f.getLsbD (k - off) else v.getLsbD k)

/-- R161, R163, R167: E_CONTRACT first, then E_FIELD_OVERFLOW when `field` is outside `[−2^(wd−1), 2^(wd−1)−1]` (for `wd = 0`
when it is not 0), else exactly the bits of the field are the low `wd` bits of `field`. -/
def Obligations.SetsInsertsSigned : Prop :=
  ∀ wd off : Nat,
    (wd < 256 → off < 256 → encode (.sets wd off) = formatF 0x53#32 wd off) ∧
    ∀ (s : State) (v : Acc) (f : BitVec 64), running s (.accS v f) →
      (64 < wd + off → exec (.sets wd off) s = .next (failed s eContract)) ∧
      (wd + off ≤ 64 → ¬ fitsField wd f.toInt → exec (.sets wd off) s = .next (failed s eFieldOverflow)) ∧
      (wd + off ≤ 64 → fitsField wd f.toInt → ∃ r : Acc, exec (.sets wd off) s = .next (answered s (.u64 r)) ∧
        ∀ k < 64, r.getLsbD k = if off ≤ k ∧ k < off + wd then f.getLsbD (k - off) else v.getLsbD k)

/-- R168: what was set is got back, for every width and starting accumulator; a field set signed reads unsigned as
`v mod 2^wd`. -/
def Obligations.GetAfterSet : Prop :=
  ∀ (s₁ s₂ : State) (wd off : Nat) (v f r : Acc), wd + off ≤ 64 → running s₂ (.u64 r) →
    (running s₁ (.accU v f) → exec (.setu wd off) s₁ = .next (answered s₁ (.u64 r)) →
      exec (.getu wd off) s₂ = .next (answered s₂ (.u64 f))) ∧
    (running s₁ (.accS v f) → exec (.sets wd off) s₁ = .next (answered s₁ (.u64 r)) →
      exec (.gets wd off) s₂ = .next (answered s₂ (.s64 f)) ∧
      exec (.getu wd off) s₂ = .next (answered s₂ (.u64 (BitVec.ofInt 64 (f.toInt % 2 ^ wd)))))

/-- R168, R170: a setter leaves every disjoint field unchanged; an empty field is disjoint from every other. -/
def Obligations.SetLeavesDisjointFields : Prop :=
  ∀ (s₁ s₂ s₃ : State) (wd off wd₂ off₂ : Nat) (v f r : Acc), wd₂ + off₂ ≤ 64 →
    off₂ + wd₂ ≤ off ∨ off + wd ≤ off₂ ∨ wd = 0 ∨ wd₂ = 0 → running s₂ (.u64 v) → running s₃ (.u64 r) →
    (running s₁ (.accU v f) ∧ exec (.setu wd off) s₁ = .next (answered s₁ (.u64 r))) ∨
      (running s₁ (.accS v f) ∧ exec (.sets wd off) s₁ = .next (answered s₁ (.u64 r))) →
    ∃ x, exec (.getu wd₂ off₂) s₂ = .next (answered s₂ (.u64 x)) ∧
      exec (.getu wd₂ off₂) s₃ = .next (answered s₃ (.u64 x))

/-! ### Word Packer / Unpacker (45_word_packer.md, 30_encoding.md rules R60 to R64) -/

/-- R60, R181: the Codeword of a Block, and E_FIELD_OVERFLOW exactly when its average luma is outside (−1/1022, 1 + 1/1022).
The missing clamp is the spec's decision D23. -/
def Obligations.PackLaysOutTheCodeword : Prop :=
  encode .pack = 0x60000000#32 ∧
  ∀ (s : State) (b : Block) (a bb cc dd mpb mpr : REAL), running s (.block b) →
    a = (b.pix4.y + b.pix3.y + b.pix2.y + b.pix1.y) / 4 → bb = (b.pix4.y + b.pix3.y - b.pix2.y - b.pix1.y) / 4 →
    cc = (b.pix4.y - b.pix3.y + b.pix2.y - b.pix1.y) / 4 → dd = (b.pix4.y - b.pix3.y - b.pix2.y + b.pix1.y) / 4 →
    mpb = (b.pix1.pb + b.pix2.pb + b.pix3.pb + b.pix4.pb) / 4 →
    mpr = (b.pix1.pr + b.pix2.pr + b.pix3.pr + b.pix4.pr) / 4 →
    (a ≤ -1 / 1022 ∨ 1 + 1 / 1022 ≤ a → exec .pack s = .next (failed s eFieldOverflow)) ∧
    (-1 / 1022 < a → a < 1 + 1 / 1022 → ∃ w : Codeword, exec .pack s = .next (answered s (.codeword w)) ∧
      (w.toNat : Int) = qa a * 2 ^ 23 + qd bb % 32 * 2 ^ 18 + qd cc % 32 * 2 ^ 13 + qd dd % 32 * 2 ^ 8 +
        ((s.params.chroma.table.indexOf mpb).toNat * 2 ^ 4 + (s.params.chroma.table.indexOf mpr).toNat : Nat))

/-- R182: UNPACK reads the six fields, dequantizes, inverts the transform; the four pixels share one chroma pair; each luma lies
in [−0.9, 1.9]. -/
def Obligations.UnpackRebuildsTheBlock : Prop :=
  encode .unpack = 0x61000000#32 ∧
  ∀ (s : State) (w : Codeword) (a b c d pb pr : REAL), running s (.codeword w) →
    a = limited (((w.extractLsb' 23 9).toNat : REAL) / 511) 0 1 →
    b = limited (((w.extractLsb' 18 5).toInt : REAL) / 50) (-3 / 10) (3 / 10) →
    c = limited (((w.extractLsb' 13 5).toInt : REAL) / 50) (-3 / 10) (3 / 10) →
    d = limited (((w.extractLsb' 8 5).toInt : REAL) / 50) (-3 / 10) (3 / 10) →
    pb = s.params.chroma.table.ofIndex (w.extractLsb' 4 4) → pr = s.params.chroma.table.ofIndex (w.extractLsb' 0 4) →
    exec .unpack s = .next (answered s (.block
      ⟨⟨a - b - c + d, pb, pr⟩, ⟨a - b + c - d, pb, pr⟩, ⟨a + b - c - d, pb, pr⟩, ⟨a + b + c + d, pb, pr⟩⟩)) ∧
    ∀ y ∈ [a - b - c + d, a - b + c - d, a + b - c - d, a + b + c + d], -9 / 10 ≤ y ∧ y ≤ 19 / 10

/-- R44, R183: the big-endian serialization. -/
def Obligations.W2bIsBigEndian : Prop :=
  encode .w2b = 0x62000000#32 ∧
  ∀ (s : State) (w : Codeword), running s (.codeword w) →
    exec .w2b s = .next (answered s (.bytes
      (w.extractLsb' 24 8) (w.extractLsb' 16 8) (w.extractLsb' 8 8) (w.extractLsb' 0 8)))

/-- R184: `{b0, b1, b2, b3}`, the inverse of W2B both ways. -/
def Obligations.B2wInvertsW2b : Prop :=
  encode .b2w = 0x63000000#32 ∧
  (∀ (s : State) (b0 b1 b2 b3 : Byte), running s (.bytes b0 b1 b2 b3) →
    ∃ w : Codeword, exec .b2w s = .next (answered s (.codeword w)) ∧
      w.toNat = b0.toNat * 2 ^ 24 + b1.toNat * 2 ^ 16 + b2.toNat * 2 ^ 8 + b3.toNat ∧
      ∀ s₂, running s₂ (.codeword w) → exec .w2b s₂ = .next (answered s₂ (.bytes b0 b1 b2 b3))) ∧
  (∀ (s : State) (w : Codeword), running s (.codeword w) →
    ∃ b0 b1 b2 b3, exec .w2b s = .next (answered s (.bytes b0 b1 b2 b3)) ∧
      ∀ s₂, running s₂ (.bytes b0 b1 b2 b3) → exec .b2w s₂ = .next (answered s₂ (.codeword w)))

/-- R185 (2), which the spec derives: PACK of UNPACK of a word is the word with every detail field −16 replaced by −15, for
every CHROMA; it never fails. -/
def Obligations.PackAfterUnpack : Prop :=
  ∀ (s₁ s₂ : State) (w : Codeword), s₁.params.chroma = s₂.params.chroma → running s₁ (.codeword w) →
    ∃ b w', exec .unpack s₁ = .next (answered s₁ (.block b)) ∧
      (running s₂ (.block b) → exec .pack s₂ = .next (answered s₂ (.codeword w'))) ∧
      w'.extractLsb' 23 9 = w.extractLsb' 23 9 ∧
      (∀ off ∈ [18, 13, 8], (w'.extractLsb' off 5).toInt =
        if (w.extractLsb' off 5).toInt = -16 then -15 else (w.extractLsb' off 5).toInt) ∧
      w'.extractLsb' 0 8 = w.extractLsb' 0 8

/-- R185 (1), which the spec derives: the luma error of a packed and unpacked Block. -/
def Obligations.PackedLumaErrorBound : Prop :=
  ∀ (s₁ s₂ : State) (x : Block) (t : TransformedBlock), running s₁ (.block x) →
    t = btFwd ⟨x.pix1.y, x.pix2.y, x.pix3.y, x.pix4.y⟩ →
    (∀ v ∈ [x.pix1.y, x.pix2.y, x.pix3.y, x.pix4.y], 0 ≤ v ∧ v ≤ 1) →
    |t.b| ≤ 3 / 10 → |t.c| ≤ 3 / 10 → |t.d| ≤ 3 / 10 →
    ∃ w, exec .pack s₁ = .next (answered s₁ (.codeword w)) ∧
      (running s₂ (.codeword w) → ∃ z : Block, exec .unpack s₂ = .next (answered s₂ (.block z)) ∧
        |z.pix1.y - x.pix1.y| ≤ 1 / 1022 + 3 / 100 ∧ |z.pix2.y - x.pix2.y| ≤ 1 / 1022 + 3 / 100 ∧
        |z.pix3.y - x.pix3.y| ≤ 1 / 1022 + 3 / 100 ∧ |z.pix4.y - x.pix4.y| ≤ 1 / 1022 + 3 / 100)

/-! ### Pipeline (46_pipeline.md) -/

/-- The Block of converted pixels whose top-left pixel is at row `2*bi`, column `2*bj` of the ORIGINAL raster. -/
def Sys2Proof.Claims.isBlockOf (px : List RgbIn) (w bi bj : Nat) (b : Block) : Prop :=
  ∃ p1 p2 p3 p4 : RgbIn, px[2 * bi * w + 2 * bj]? = some p1 ∧ px[2 * bi * w + (2 * bj + 1)]? = some p2 ∧
    px[(2 * bi + 1) * w + 2 * bj]? = some p3 ∧ px[(2 * bi + 1) * w + (2 * bj + 1)]? = some p4 ∧
    b = ⟨cscFwd (rgb2f p1), cscFwd (rgb2f p2), cscFwd (rgb2f p3), cscFwd (rgb2f p4)⟩

/-- R200, R201, R204, R43, R51: E_SIZE on a wrong length; else ENCODE never fails: it returns the even-truncated dimensions and
four bytes per Block, bytes `4k` to `4k+3` being the Codeword of Block `k` of the even part, big-endian. E_SIZE is the spec's
decision D14, the even dimensions in the result its decision D16 (R203). -/
def Obligations.EncodeImageStream : Prop :=
  encode .encode = 0x70000000#32 ∧
  ∀ (s : State) (px : List RgbIn) (w h : Nat), running s (.raster (.rgbIn px) w h) →
    (px.length ≠ w * h → exec .encode s = .next (failed s eSize)) ∧
    (px.length = w * h → ∃ st : List Byte,
      exec .encode s = .next (answered s (.stream st (w - w % 2) (h - h % 2))) ∧
      st.length = 4 * ((w / 2) * (h / 2)) ∧
      ∀ bi bj, bi < h / 2 → bj < w / 2 → ∃ b word, isBlockOf px w bi bj b ∧
        pack s.params.chroma.table b = .ok word ∧
        st[4 * (bi * (w / 2) + bj)]? = some (word.extractLsb' 24 8) ∧
        st[4 * (bi * (w / 2) + bj) + 1]? = some (word.extractLsb' 16 8) ∧
        st[4 * (bi * (w / 2) + bj) + 2]? = some (word.extractLsb' 8 8) ∧
        st[4 * (bi * (w / 2) + bj) + 3]? = some (word.extractLsb' 0 8))

/-- R201, R202: the pixels beyond the even-truncated bounds influence nothing. -/
def Obligations.DroppedPixelsDoNotMatter : Prop :=
  ∀ (s₁ s₂ : State) (p q : List RgbIn) (w h : Nat), s₁.params.chroma = s₂.params.chroma →
    p.length = w * h → q.length = w * h →
    (∀ i j, i < h - h % 2 → j < w - w % 2 → p[i * w + j]? = q[i * w + j]?) →
    running s₁ (.raster (.rgbIn p) w h) → running s₂ (.raster (.rgbIn q) w h) →
    ∃ st, exec .encode s₁ = .next (answered s₁ (.stream st (w - w % 2) (h - h % 2))) ∧
      exec .encode s₂ = .next (answered s₂ (.stream st (w - w % 2) (h - h % 2)))

/-- R210: the uniform red 2×2 image, for every CHROMA: one Codeword with `A = 153`, no detail, the two indices of red; and it
decodes to a uniform Block. -/
def Obligations.UniformRedScenario : Prop :=
  ∀ (s₁ s₂ : State) (pbi pri : Idx) (w : Codeword),
    running s₁ (.raster (.rgbIn [⟨255, 0, 0⟩, ⟨255, 0, 0⟩, ⟨255, 0, 0⟩, ⟨255, 0, 0⟩]) 2 2) →
    pbi = s₁.params.chroma.table.indexOf (-(168736 / 1000000)) → pri = s₁.params.chroma.table.indexOf (1 / 2) →
    w = BitVec.ofNat 32 (153 * 2 ^ 23 + pbi.toNat * 2 ^ 4 + pri.toNat) →
    exec .encode s₁ = .next (answered s₁ (.stream
      [w.extractLsb' 24 8, w.extractLsb' 16 8, w.extractLsb' 8 8, w.extractLsb' 0 8] 2 2)) ∧
    (running s₂ (.codeword w) → ∃ q, exec .unpack s₂ = .next (answered s₂ (.block ⟨q, q, q, q⟩)))

/-- R205, R206, R207, R98: E_MALFORMED_STREAM on a length that is no multiple of 4 or a word count that is not that of the
even-truncated dimensions; else, on an admissible port, DECODE never fails, and the pixel at row `i`, column `j` is YPP2RGB of
the pixel UNPACK gives there. The truncated dimensions, the count check and the port are the spec's decisions D16, D17 and D3. -/
def Obligations.DecodeImageRaster : Prop :=
  encode .decode = 0x71000000#32 ∧
  ∀ (s : State) (st : List Byte) (w h : Nat), running s (.stream st w h) →
    (st.length % 4 ≠ 0 → exec .decode s = .next (failed s eMalformedStream)) ∧
    (st.length % 4 = 0 → st.length / 4 ≠ (w / 2) * (h / 2) → exec .decode s = .next (failed s eMalformedStream)) ∧
    (st.length = 4 * ((w / 2) * (h / 2)) → s.params.admissible = true → ∃ px : List RgbOut,
      exec .decode s = .next (answered s (.raster (.rgbOut px) (w - w % 2) (h - h % 2))) ∧
      px.length = (w - w % 2) * (h - h % 2) ∧
      ∀ i j k b0 b1 b2 b3, i < h - h % 2 → j < w - w % 2 → k = (i / 2) * (w / 2) + j / 2 →
        st[4 * k]? = some b0 → st[4 * k + 1]? = some b1 → st[4 * k + 2]? = some b2 → st[4 * k + 3]? = some b3 →
        ∃ p, px[i * (w - w % 2) + j]? = some p ∧
          truncated (255 * (cscInv (Block.pixelAt (unpack s.params.chroma.table (b0 ++ b1 ++ b2 ++ b3)) i j)).r) p.red ∧
          truncated (255 * (cscInv (Block.pixelAt (unpack s.params.chroma.table (b0 ++ b1 ++ b2 ++ b3)) i j)).g) p.green ∧
          truncated (255 * (cscInv (Block.pixelAt (unpack s.params.chroma.table (b0 ++ b1 ++ b2 ++ b3)) i j)).b) p.blue)

/-- R209, what is exact of it: DECODE of ENCODE of an image succeeds and returns `W*H` pixels and the same `(W, H)`, on every
admissible port, also with another CHROMA. -/
def Obligations.DecodeAfterEncode : Prop :=
  ∀ (s₁ s₂ : State) (px : List RgbIn) (w h : Nat), px.length = w * h → running s₁ (.raster (.rgbIn px) w h) →
    s₂.params.admissible = true →
    ∃ st W H, exec .encode s₁ = .next (answered s₁ (.stream st W H)) ∧ W = w - w % 2 ∧ H = h - h % 2 ∧
      (running s₂ (.stream st W H) → ∃ out : List RgbOut,
        exec .decode s₂ = .next (answered s₂ (.raster (.rgbOut out) W H)) ∧ out.length = W * H)
end

