-- ==== Sys2Proof/Laws/State.lean ====
section
/-! SUPPORT. One lemma per field per update of the state, each true by rfl, so that no proof unfolds a record update; and what
`accept` and `finish` can do, said once. -/

namespace Sys2Proof.Machine

/-! ### present -/
@[simp] theorem present_params (s : State) (r : Request) : (s.present r).params = s.params := rfl
@[simp] theorem present_current (s : State) (r : Request) : (s.present r).current = s.current := rfl
@[simp] theorem present_waiting (s : State) (r : Request) : (s.present r).waiting = s.waiting ++ [r] := rfl
@[simp] theorem present_responses (s : State) (r : Request) : (s.present r).responses = s.responses := rfl

/-! ### deliver, answer, raise, finish -/
@[simp] theorem deliver_params (s : State) (r : Response) : (s.deliver r).params = s.params := rfl
@[simp] theorem deliver_current (s : State) (r : Response) : (s.deliver r).current = none := rfl
@[simp] theorem deliver_waiting (s : State) (r : Response) : (s.deliver r).waiting = s.waiting := rfl
@[simp] theorem deliver_responses (s : State) (r : Response) : (s.deliver r).responses = s.responses ++ [r] := rfl

@[simp] theorem answer_params (s : State) (p : Payload) : (s.answer p).params = s.params := rfl
@[simp] theorem answer_current (s : State) (p : Payload) : (s.answer p).current = none := rfl
@[simp] theorem answer_waiting (s : State) (p : Payload) : (s.answer p).waiting = s.waiting := rfl
@[simp] theorem answer_responses (s : State) (p : Payload) :
    (s.answer p).responses = s.responses ++ [⟨0#8, some p⟩] := rfl

@[simp] theorem raise_params (s : State) (e : Error) : (s.raise e).params = s.params := rfl
@[simp] theorem raise_current (s : State) (e : Error) : (s.raise e).current = none := rfl
@[simp] theorem raise_waiting (s : State) (e : Error) : (s.raise e).waiting = s.waiting := rfl
@[simp] theorem raise_responses (s : State) (e : Error) :
    (s.raise e).responses = s.responses ++ [⟨e.code, none⟩] := rfl

@[simp] theorem finish_ok (s : State) (p : Payload) : s.finish (.ok p) = s.answer p := rfl
@[simp] theorem finish_error (s : State) (e : Error) : s.finish (.error e) = s.raise e := rfl

/-- The response a computation ends in (R20, R226). -/
def responseOf : Except Error Payload → Response
  | .ok p => ⟨0#8, some p⟩
  | .error e => ⟨e.code, none⟩

@[simp] theorem responseOf_ok (p : Payload) : responseOf (.ok p) = ⟨0#8, some p⟩ := rfl
@[simp] theorem responseOf_error (e : Error) : responseOf (.error e) = ⟨e.code, none⟩ := rfl

theorem finish_eq_deliver (s : State) (x : Except Error Payload) : s.finish x = s.deliver (responseOf x) := by
  cases x <;> rfl

@[simp] theorem finish_params (s : State) (x : Except Error Payload) : (s.finish x).params = s.params := by
  cases x <;> rfl
@[simp] theorem finish_current (s : State) (x : Except Error Payload) : (s.finish x).current = none := by
  cases x <;> rfl
@[simp] theorem finish_waiting (s : State) (x : Except Error Payload) : (s.finish x).waiting = s.waiting := by
  cases x <;> rfl
@[simp] theorem finish_responses (s : State) (x : Except Error Payload) :
    (s.finish x).responses = s.responses ++ [responseOf x] := by
  cases x <;> rfl

/-! ### assertReset -/
@[simp] theorem assertReset_params (s : State) : s.assertReset.params = s.params := rfl
@[simp] theorem assertReset_current (s : State) : s.assertReset.current = none := rfl
@[simp] theorem assertReset_waiting (s : State) : s.assertReset.waiting = s.waiting := rfl
@[simp] theorem assertReset_responses (s : State) : s.assertReset.responses = s.responses := rfl

/-! ### accept -/
theorem accept_of_current {s : State} {r : Request} (h : s.current = some r) : s.accept = s := by
  simp [State.accept, h]

theorem accept_of_waiting {s : State} {r : Request} {rest : List Request} (hc : s.current = none)
    (hw : s.waiting = r :: rest) : s.accept = { s with current := some r, waiting := rest } := by
  simp [State.accept, hc, hw]

theorem accept_of_idle {s : State} (hc : s.current = none) (hw : s.waiting = []) : s.accept = s := by
  simp [State.accept, hc, hw]

@[simp] theorem accept_params (s : State) : s.accept.params = s.params := by
  unfold State.accept; split <;> rfl
@[simp] theorem accept_responses (s : State) : s.accept.responses = s.responses := by
  unfold State.accept; split <;> rfl

/-- What `accept` can do, all of it. -/
theorem accept_cases (s : State) :
    (∃ r, s.current = some r ∧ s.accept = s) ∨
    (∃ r rest, s.current = none ∧ s.waiting = r :: rest ∧ s.accept = { s with current := some r, waiting := rest }) ∨
    (s.current = none ∧ s.waiting = [] ∧ s.accept = s) := by
  cases hc : s.current with
  | some r => exact .inl ⟨r, rfl, accept_of_current hc⟩
  | none =>
    cases hw : s.waiting with
    | nil => exact .inr (.inr ⟨rfl, rfl, accept_of_idle hc hw⟩)
    | cons r rest => exact .inr (.inl ⟨r, rest, rfl, rfl, accept_of_waiting hc hw⟩)

end Sys2Proof.Machine
end

