-- ==== Sys2Proof/Laws/Exec.lean ====
section
/-! SUPPORT. What `transact`, a meaning and a step can do, said once: later proofs cite these and do not unfold `exec`. -/

namespace Sys2Proof.Machine

variable {α : Type} {get : Payload → Option α} {f : α → Except Error Payload} {s t : State}

theorem transact_of_operands {cmd : BitVec 32} {p : Payload} {a : α} (h : s.current = some ⟨cmd, p⟩)
    (hg : get p = some a) (hd : p.dimsFit s.params.dimW = true) : transact get f s = .next (s.finish (f a)) := by
  simp [transact, h, hg, hd]

theorem transact_eq_next_iff :
    transact get f s = .next t ↔ ∃ r a, s.current = some r ∧
      r.arg.dimsFit s.params.dimW = true ∧ get r.arg = some a ∧ t = s.finish (f a) := by
  cases hc : s.current with
  | none => simp [transact, hc]
  | some r =>
    unfold transact
    cases hd : r.arg.dimsFit s.params.dimW <;> cases hg : get r.arg <;> simp [hc, hd, hg, eq_comm (a := t)]

/-- What an operation computes from the static parameters and `ARG`; `none` where `ARG` is not of its type (R33). -/
def computed (ps : Params) (i : Instr) (p : Payload) : Option (Except Error Payload) :=
  match i with
  | .rgb2f => p.rgbIn?.map fun p => .ok (.float (rgb2f p))
  | .cscfwd => p.float?.map fun p => .ok (.chroma (cscFwd p))
  | .cscinv => p.chroma?.map fun p => .ok (.float (cscInv p))
  | .f2rgb => p.float?.map fun p => (f2rgb ps.rgboW p).map .rgbOut
  | .even => p.dims?.map fun (w, h) => .ok (.dims (evenTrunc w) (evenTrunc h))
  | .crop => p.raster?.map fun (px, w, h) => cropRaster w h px
  | .decomp => p.chromaRaster?.map fun (px, w, h) => (decomp px w h).map .blocks
  | .comp => p.grid?.map fun (bs, w, h) => (comp bs w h).map .pixels
  | .btfwd => p.quad?.map fun y => .ok (.coeffs (btFwd y))
  | .btinv => p.coeffs?.map fun t => .ok (.quad (btInv t))
  | .qa => p.real?.map fun a => .ok (.int (qa a))
  | .dqa => p.u9?.map fun c => .ok (.real (dqa c))
  | .qd => p.real?.map fun x => .ok (.s5 (BitVec.ofInt 5 (qd x)))
  | .dqd => p.s5?.map fun c => .ok (.real (dqd c))
  | .qch => p.quad?.map fun v => .ok (.idx (qch ps.chroma.table v))
  | .dqch => p.idx?.map fun i => .ok (.real (dqch ps.chroma.table i))
  | .getu wd off => p.u64?.map fun v => (getu wd off v).map .u64
  | .gets wd off => p.u64?.map fun v => (gets wd off v).map .s64
  | .setu wd off => p.accU?.map fun (v, f) => (setu wd off v (f.toNat : Int)).map .u64
  | .sets wd off => p.accS?.map fun (v, f) => (sets wd off v f.toInt).map .u64
  | .pack => p.block?.map fun b => (pack ps.chroma.table b).map .codeword
  | .unpack => p.codeword?.map fun w => .ok (.block (unpack ps.chroma.table w))
  | .w2b => p.codeword?.map fun w => .ok (.bytes (w2b w).1 (w2b w).2.1 (w2b w).2.2.1 (w2b w).2.2.2)
  | .b2w => p.bytes?.map fun (b0, b1, b2, b3) => .ok (.codeword (b2w b0 b1 b2 b3))
  | .encode => p.rgbInRaster?.map fun (px, w, h) =>
      (encodeImage ps.chroma.table px w h).map fun (st, W, H) => .stream st W H
  | .decode => p.stream?.map fun (st, w, h) =>
      (decodeImage ps.chroma.table ps.rgboW st w h).map fun (px, W, H) => .raster (.rgbOut px) W H

/-- What a transaction computes: as `computed`, on a payload whose dimensions the instance carries (R7, R20, R33). -/
def outcome (ps : Params) (i : Instr) (p : Payload) : Option (Except Error Payload) :=
  if p.dimsFit ps.dimW then computed ps i p else none

theorem outcome_of_fits {ps : Params} {i : Instr} {p : Payload} (h : p.dimsFit ps.dimW = true) :
    outcome ps i p = computed ps i p := if_pos h

theorem outcome_eq_some_iff {ps : Params} {i : Instr} {p : Payload} {x : Except Error Payload} :
    outcome ps i p = some x ↔ p.dimsFit ps.dimW = true ∧ computed ps i p = some x := by
  unfold outcome
  split <;> simp [*]

theorem transact_eq_outcome (s : State) (get : Payload → Option α) (f : α → Except Error Payload) :
    transact get f s =
      match s.current with
      | none => .refused .noTransaction
      | some r =>
        match if r.arg.dimsFit s.params.dimW then (get r.arg).map f else none with
        | none => .refused .payloadType
        | some x => .next (s.finish x) := by
  unfold transact
  cases s.current with
  | none => rfl
  | some r => cases hd : r.arg.dimsFit s.params.dimW <;> cases h : get r.arg <;> simp [hd, h]

/-- Every meaning is its outcome, delivered: the one unfolding of `exec`. -/
theorem exec_eq_outcome (i : Instr) (s : State) :
    exec i s =
      match s.current with
      | none => .refused .noTransaction
      | some r =>
        match outcome s.params i r.arg with
        | none => .refused .payloadType
        | some x => .next (s.finish x) := by
  cases i <;> exact transact_eq_outcome s _ _

theorem exec_of_outcome {i : Instr} {r : Request} {x : Except Error Payload} (h : s.current = some r)
    (hx : outcome s.params i r.arg = some x) : exec i s = .next (s.finish x) := by
  simp [exec_eq_outcome, h, hx]

/-- An operation that computes a result, as the whole next state. -/
theorem exec_of_ok {i : Instr} {r : Request} {p : Payload} (h : s.current = some r)
    (hx : outcome s.params i r.arg = some (.ok p)) :
    exec i s = .next { s with current := none, responses := s.responses ++ [⟨0#8, some p⟩] } := exec_of_outcome h hx

/-- An operation that raises an error, as the whole next state. -/
theorem exec_of_error {i : Instr} {r : Request} {e : Error} (h : s.current = some r)
    (hx : outcome s.params i r.arg = some (.error e)) :
    exec i s = .next { s with current := none, responses := s.responses ++ [⟨e.code, none⟩] } := exec_of_outcome h hx

theorem exec_eq_next_iff {i : Instr} :
    exec i s = .next t ↔ ∃ r x, s.current = some r ∧ outcome s.params i r.arg = some x ∧ t = s.finish x := by
  rw [exec_eq_outcome]
  cases hc : s.current with
  | none => simp
  | some r => cases hx : outcome s.params i r.arg <;> simp [hx, eq_comm]

/-- An operation computes exactly on the payloads of its type. -/
theorem computed_isSome (ps : Params) (i : Instr) (p : Payload) :
    (computed ps i p).isSome = (argKinds i).contains p.kind := by
  cases i <;> cases p <;> first
    | rfl
    | (rename_i px _ _; cases px <;> rfl)

/-- A transaction computes exactly on the payloads its operation accepts. -/
theorem outcome_isSome (ps : Params) (i : Instr) (p : Payload) : (outcome ps i p).isSome = accepts ps i p := by
  unfold outcome accepts
  rw [← computed_isSome ps]
  cases p.dimsFit ps.dimW <;> simp

/-- The payload placed beside a command word is one its operation takes, whatever the instance. -/
theorem accepts_zeroArg (ps : Params) (i : Instr) : accepts ps i (zeroArg i) = true := by
  have fits : dimFits ps.dimW 0 = true := by
    cases ps.dimW with
    | none => rfl
    | some w => exact decide_eq_true (Nat.two_pow_pos w)
  cases i <;> simp [accepts, argKinds, zeroArg, Payload.kind, Raster.kind, Payload.dimsFit, Payload.dimensions, fits]

theorem step_of_current {r : Request} {i : Instr} (hc : s.current = some r) (hd : decode r.cmd = .ok i) :
    step s = exec i s := by
  simp [step, accept_of_current hc, hc, hd]

theorem step_of_waiting {r : Request} {rest : List Request} {i : Instr} (hc : s.current = none)
    (hw : s.waiting = r :: rest) (hd : decode r.cmd = .ok i) :
    step s = exec i { s with current := some r, waiting := rest } := by
  simp [step, accept_of_waiting hc hw, hd]

theorem step_of_illegal_current {r : Request} {e : DecodeError} (hc : s.current = some r)
    (hd : decode r.cmd = .error e) : step s = .next (s.raise .illegal) := by
  simp [step, accept_of_current hc, hc, hd]

theorem step_of_illegal_waiting {r : Request} {rest : List Request} {e : DecodeError} (hc : s.current = none)
    (hw : s.waiting = r :: rest) (hd : decode r.cmd = .error e) :
    step s = .next (State.raise { s with current := some r, waiting := rest } .illegal) := by
  simp [step, accept_of_waiting hc hw, hd]

theorem step_of_idle (hc : s.current = none) (hw : s.waiting = []) : step s = .next s := by
  simp [step, accept_of_idle hc hw, hc]

/-- What a step that answers a next state can have done, all of it. -/
theorem step_cases (h : step s = .next t) :
    (s.current = none ∧ s.waiting = [] ∧ t = s) ∨
    (∃ r, s.accept.current = some r ∧
      ((∃ e, decode r.cmd = .error e ∧ t = s.accept.raise .illegal) ∨
        ∃ i x, decode r.cmd = .ok i ∧ outcome s.params i r.arg = some x ∧ t = s.accept.finish x)) := by
  rcases accept_cases s with ⟨r, hc, ha⟩ | ⟨r, rest, hc, hw, ha⟩ | ⟨hc, hw, -⟩
  · refine .inr ⟨r, by rw [ha, hc], ?_⟩
    cases hd : decode r.cmd with
    | error e => rw [step_of_illegal_current hc hd] at h; exact .inl ⟨e, rfl, by rw [ha]; injection h with h; exact h.symm⟩
    | ok i =>
      rw [step_of_current hc hd, exec_eq_next_iff] at h
      obtain ⟨r', x, hr, hx, rfl⟩ := h
      cases hc.symm.trans hr
      exact .inr ⟨i, x, rfl, hx, by rw [ha]⟩
  · refine .inr ⟨r, by rw [ha], ?_⟩
    cases hd : decode r.cmd with
    | error e => rw [step_of_illegal_waiting hc hw hd] at h; exact .inl ⟨e, rfl, by rw [ha]; injection h with h; exact h.symm⟩
    | ok i =>
      rw [step_of_waiting hc hw hd, exec_eq_next_iff] at h
      obtain ⟨r', x, hr, hx, rfl⟩ := h
      cases hr
      exact .inr ⟨i, x, rfl, hx, by rw [ha]⟩
  · rw [step_of_idle hc hw] at h; injection h with h; exact .inl ⟨hc, hw, h.symm⟩

end Sys2Proof.Machine
end

