-- ==== Sys2Proof/Laws/Bitfield.lean ====
section
/-! SUPPORT. The bits that a field read sees and a field insertion writes, said once (44_bitfield.md rules R164 to R168). -/

namespace Sys2Proof.Machine

variable {wd off k u : Nat} {v : Acc}

theorem testBit_fieldBits (wd off k : Nat) (v : Acc) :
    (fieldBits wd off v).testBit k = (decide (k < wd) && v.getLsbD (off + k)) := by
  simp [fieldBits, Nat.testBit_mod_two_pow, Nat.testBit_shiftRight, BitVec.testBit_toNat]

theorem fieldBits_lt (wd off : Nat) (v : Acc) : fieldBits wd off v < 2 ^ wd := Nat.mod_lt _ (by positivity)

theorem fieldBits_eq (wd off : Nat) (v : Acc) : fieldBits wd off v = v.toNat / 2 ^ off % 2 ^ wd := by
  simp [fieldBits, Nat.shiftRight_eq_div_pow]

theorem getLsbD_fieldMask (hk : k < 64) :
    (fieldMask wd off).getLsbD k = (decide (off ≤ k) && decide (k - off < wd)) := by
  rw [fieldMask, BitVec.getLsbD_shiftLeft, BitVec.getLsbD_ofNat, Nat.testBit_two_pow_sub_one]
  have : k - off < 64 := by omega
  by_cases h : off ≤ k
  · simp [hk, h, not_lt.mpr h, this]
  · simp [hk, h, lt_of_not_ge h]

/-- An insertion replaces exactly the bits of the field. -/
theorem getLsbD_insertBits (hu : u < 2 ^ wd) (hk : k < 64) :
    (insertBits wd off v u).getLsbD k = if off ≤ k ∧ k < off + wd then u.testBit (k - off) else v.getLsbD k := by
  have hk' : k - off < 64 := by omega
  rw [insertBits, BitVec.getLsbD_or, BitVec.getLsbD_and, BitVec.getLsbD_not, getLsbD_fieldMask hk,
    BitVec.getLsbD_shiftLeft, BitVec.getLsbD_ofNat]
  by_cases h₁ : off ≤ k
  · by_cases h₂ : k < off + wd
    · have : k - off < wd := by omega
      simp [h₁, h₂, hk, hk', this, not_lt.mpr h₁]
    · have h₃ : ¬ (k - off < wd) := by omega
      have h₄ : u.testBit (k - off) = false :=
        Nat.testBit_lt_two_pow (lt_of_lt_of_le hu (Nat.pow_le_pow_right (by norm_num) (by omega)))
      simp [h₁, h₂, hk, h₃, h₄]
  · simp [h₁, hk, lt_of_not_ge h₁]

/-- What was inserted is read back (R168). -/
theorem fieldBits_insertBits (hu : u < 2 ^ wd) (hc : wd + off ≤ 64) :
    fieldBits wd off (insertBits wd off v u) = u := by
  apply Nat.eq_of_testBit_eq
  intro i
  rw [testBit_fieldBits]
  by_cases h : i < wd
  · rw [getLsbD_insertBits hu (by omega)]
    simp [h]
  · simp [h, Nat.testBit_lt_two_pow (lt_of_lt_of_le hu (Nat.pow_le_pow_right (by norm_num) (not_lt.mp h)))]

/-- A field that the insertion does not meet reads as before (R168). -/
theorem fieldBits_insertBits_of_disjoint {wd₂ off₂ : Nat} (hu : u < 2 ^ wd) (hc₂ : wd₂ + off₂ ≤ 64)
    (hd : off₂ + wd₂ ≤ off ∨ off + wd ≤ off₂ ∨ wd = 0 ∨ wd₂ = 0) :
    fieldBits wd₂ off₂ (insertBits wd off v u) = fieldBits wd₂ off₂ v := by
  apply Nat.eq_of_testBit_eq
  intro i
  rw [testBit_fieldBits, testBit_fieldBits]
  by_cases h : i < wd₂
  · rw [getLsbD_insertBits hu (by omega), if_neg (by omega)]
  · simp [h]

/-- A signed field reads as the two's-complement value of its bits, within the field's range. -/
theorem fieldSigned_eq_of_fits {z : Int} (hf : fitss z wd = true) (hb : fieldBits wd off v = (z % 2 ^ wd).toNat) :
    fieldSigned wd off v = z := by
  have hpos : (0 : Int) < 2 ^ wd := by positivity
  rcases Nat.eq_zero_or_pos wd with rfl | hw
  · have hz : z = 0 := by simpa [fitss] using hf
    have : fieldBits 0 off v = 0 := by have := fieldBits_lt 0 off v; simpa using this
    simp [fieldSigned, this, hz]
  · obtain ⟨n, rfl⟩ : ∃ n, wd = n + 1 := ⟨wd - 1, by omega⟩
    have hz : -2 ^ n ≤ z ∧ z ≤ 2 ^ n - 1 := by simpa [fitss] using hf
    have hp : (2 : Int) ^ (n + 1) = 2 * 2 ^ n := by ring
    have hpn : (0 : Int) < 2 ^ n := by positivity
    have hbit : (fieldBits (n + 1) off v).testBit n = decide (2 ^ n ≤ fieldBits (n + 1) off v) := by
      have hlt := fieldBits_lt (n + 1) off v
      rw [Nat.testBit_eq_decide_div_mod_eq]
      have hp' : 2 ^ (n + 1) = 2 * 2 ^ n := by ring
      by_cases h : 2 ^ n ≤ fieldBits (n + 1) off v
      · have : fieldBits (n + 1) off v / 2 ^ n = 1 :=
          Nat.div_eq_of_lt_le (by omega) (by omega)
        simp [this, h]
      · simp [Nat.div_eq_of_lt (not_le.mp h), h]
    have hbI : ((fieldBits (n + 1) off v : Nat) : Int) = z % 2 ^ (n + 1) := by
      rw [hb, Int.toNat_of_nonneg (Int.emod_nonneg _ hpos.ne')]
    simp only [fieldSigned, Nat.add_sub_cancel, hbit]
    by_cases hneg : z < 0
    · have hm : z % 2 ^ (n + 1) = z + 2 ^ (n + 1) := by
        rw [← Int.add_emod_right, Int.emod_eq_of_lt (by linarith) (by linarith)]
      have : 2 ^ n ≤ fieldBits (n + 1) off v := by
        have : (2 : Int) ^ n ≤ (fieldBits (n + 1) off v : Nat) := by rw [hbI, hm]; linarith
        exact_mod_cast this
      rw [if_pos ⟨by omega, by simpa using this⟩, hbI, hm]; ring
    · have hm : z % 2 ^ (n + 1) = z := Int.emod_eq_of_lt (by linarith) (by linarith)
      have : ¬ 2 ^ n ≤ fieldBits (n + 1) off v := by
        intro h
        have : (2 : Int) ^ n ≤ (fieldBits (n + 1) off v : Nat) := by exact_mod_cast h
        rw [hbI, hm] at this; linarith
      rw [if_neg (by simp [this]), hbI, hm]

theorem emod_toNat_lt (z : Int) (wd : Nat) : (z % 2 ^ wd).toNat < 2 ^ wd := by
  have h : z % 2 ^ wd < 2 ^ wd := Int.emod_lt_of_pos _ (by positivity)
  have h' : 0 ≤ z % 2 ^ wd := Int.emod_nonneg _ (by positivity)
  zify
  rw [Int.toNat_of_nonneg h']
  exact h

/-- What was inserted signed is read back signed (R168). -/
theorem fieldSigned_insertBits {z : Int} (hf : fitss z wd = true) (hc : wd + off ≤ 64) :
    fieldSigned wd off (insertBits wd off v (z % 2 ^ wd).toNat) = z :=
  fieldSigned_eq_of_fits hf (fieldBits_insertBits (emod_toNat_lt z wd) hc)

theorem fitsu_iff {z : Int} : fitsu z wd = true ↔ 0 ≤ z ∧ z < 2 ^ wd := by simp [fitsu]

theorem toNat_lt_of_fitsu {z : Int} (h : fitsu z wd = true) : z.toNat < 2 ^ wd := by
  obtain ⟨h₁, h₂⟩ := fitsu_iff.mp h
  zify
  rwa [Int.toNat_of_nonneg h₁]

theorem fitss_iff_of_pos {z : Int} (h : 1 ≤ wd) :
    fitss z wd = true ↔ -2 ^ (wd - 1) ≤ z ∧ z ≤ 2 ^ (wd - 1) - 1 := by
  simp [fitss, show wd ≠ 0 by omega]

theorem setu_of_fits {z : Int} (hc : wd + off ≤ 64) (hf : fitsu z wd = true) :
    setu wd off v z = .ok (insertBits wd off v z.toNat) := by simp [setu, inContract, hc, hf]

theorem sets_of_fits {z : Int} (hc : wd + off ≤ 64) (hf : fitss z wd = true) :
    sets wd off v z = .ok (insertBits wd off v (z % 2 ^ wd).toNat) := by simp [sets, inContract, hc, hf]

theorem getu_of_contract (hc : wd + off ≤ 64) : getu wd off v = .ok (BitVec.ofNat 64 (fieldBits wd off v)) := by
  simp [getu, inContract, hc]

theorem gets_of_contract (hc : wd + off ≤ 64) : gets wd off v = .ok (BitVec.ofInt 64 (fieldSigned wd off v)) := by
  simp [gets, inContract, hc]

theorem getu_of_not_contract (hc : 64 < wd + off) : getu wd off v = .error .contract := by
  simp [getu, inContract, not_le.mpr hc]

theorem gets_of_not_contract (hc : 64 < wd + off) : gets wd off v = .error .contract := by
  simp [gets, inContract, not_le.mpr hc]

theorem setu_of_not_contract {z : Int} (hc : 64 < wd + off) : setu wd off v z = .error .contract := by
  simp [setu, inContract, not_le.mpr hc]

theorem sets_of_not_contract {z : Int} (hc : 64 < wd + off) : sets wd off v z = .error .contract := by
  simp [sets, inContract, not_le.mpr hc]

theorem setu_of_not_fits {z : Int} (hc : wd + off ≤ 64) (hf : fitsu z wd = false) :
    setu wd off v z = .error .fieldOverflow := by simp [setu, inContract, hc, hf]

theorem sets_of_not_fits {z : Int} (hc : wd + off ≤ 64) (hf : fitss z wd = false) :
    sets wd off v z = .error .fieldOverflow := by simp [sets, inContract, hc, hf]

end Sys2Proof.Machine
end

