-- ==== Sys2Proof/Laws/Real.lean ====
section
/-! SUPPORT. What `clamp`, `roundAway` and `trunc` give, said once (00_scope.md rule R10). -/

namespace Sys2Proof.Machine

variable {x lo hi : REAL}

theorem clamp_eq_max_min (h : lo ≤ hi) : clamp x lo hi = max lo (min x hi) := by
  unfold clamp
  split
  · rw [max_eq_left]; exact (min_le_left _ _).trans (le_of_lt ‹_›)
  · split
    · rw [min_eq_right (le_of_lt ‹_›), max_eq_right h]
    · rw [min_eq_left (not_lt.mp ‹_›), max_eq_right (not_lt.mp ‹_›)]

theorem clamp_of_mem (h₁ : lo ≤ x) (h₂ : x ≤ hi) : clamp x lo hi = x := by
  simp [clamp, not_lt.mpr h₁, not_lt.mpr h₂]

theorem le_clamp (h : lo ≤ hi) : lo ≤ clamp x lo hi := by
  rw [clamp_eq_max_min h]; exact le_max_left _ _

theorem clamp_le (h : lo ≤ hi) : clamp x lo hi ≤ hi := by
  rw [clamp_eq_max_min h]; exact max_le h (min_le_right _ _)

theorem ratFloor_le (x : REAL) : (x.floor : REAL) ≤ x := Int.floor_le x
theorem lt_ratFloor_add_one (x : REAL) : x < (x.floor : REAL) + 1 := Int.lt_floor_add_one x

/-- Rounding a non-negative number: half a unit at most, and up at a tie. -/
theorem roundAway_of_nonneg (h : 0 ≤ x) : (roundAway x : REAL) - 1 / 2 ≤ x ∧ x < (roundAway x : REAL) + 1 / 2 := by
  have h₁ := ratFloor_le (x + 1 / 2)
  have h₂ := lt_ratFloor_add_one (x + 1 / 2)
  simp only [roundAway, if_pos h]
  constructor <;> linarith

/-- Rounding a negative number: half a unit at most, and down at a tie. -/
theorem roundAway_of_neg (h : x < 0) : (roundAway x : REAL) - 1 / 2 < x ∧ x ≤ (roundAway x : REAL) + 1 / 2 := by
  have h₁ := ratFloor_le (-x + 1 / 2)
  have h₂ := lt_ratFloor_add_one (-x + 1 / 2)
  simp only [roundAway, if_neg (not_le.mpr h), Int.cast_neg]
  constructor <;> linarith

theorem abs_sub_roundAway (x : REAL) : |x - roundAway x| ≤ 1 / 2 := by
  rw [abs_le]
  rcases lt_or_ge x 0 with h | h
  · have := roundAway_of_neg h; constructor <;> linarith
  · have := roundAway_of_nonneg h; constructor <;> linarith

/-- The integer that is within the half unit that rounding leaves is what rounding gives. -/
theorem roundAway_eq_of_nonneg {z : Int} (h : 0 ≤ x) (h₁ : (z : REAL) - 1 / 2 ≤ x) (h₂ : x < (z : REAL) + 1 / 2) :
    roundAway x = z := by
  have := roundAway_of_nonneg h
  have a : ((roundAway x : Int) : REAL) < (z : REAL) + 1 := by linarith
  have b : (z : REAL) < ((roundAway x : Int) : REAL) + 1 := by linarith
  have a' : roundAway x < z + 1 := by exact_mod_cast a
  have b' : z < roundAway x + 1 := by exact_mod_cast b
  omega

theorem roundAway_eq_of_neg {z : Int} (h : x < 0) (h₁ : (z : REAL) - 1 / 2 < x) (h₂ : x ≤ (z : REAL) + 1 / 2) :
    roundAway x = z := by
  have := roundAway_of_neg h
  have a : ((roundAway x : Int) : REAL) < (z : REAL) + 1 := by linarith
  have b : (z : REAL) < ((roundAway x : Int) : REAL) + 1 := by linarith
  have a' : roundAway x < z + 1 := by exact_mod_cast a
  have b' : z < roundAway x + 1 := by exact_mod_cast b
  omega

@[simp] theorem roundAway_intCast (z : Int) : roundAway (z : REAL) = z := by
  rcases lt_or_ge (z : REAL) 0 with h | h
  · exact roundAway_eq_of_neg h (by linarith) (by linarith)
  · exact roundAway_eq_of_nonneg h (by linarith) (by linarith)

theorem trunc_of_nonneg (h : 0 ≤ x) : 0 ≤ trunc x ∧ (trunc x : REAL) ≤ x ∧ x < (trunc x : REAL) + 1 := by
  simp only [trunc, if_pos h]
  exact ⟨Rat.le_floor_iff.mpr (by simpa using h), ratFloor_le x, lt_ratFloor_add_one x⟩

theorem trunc_of_neg (h : x < 0) : trunc x ≤ 0 ∧ x ≤ (trunc x : REAL) ∧ (trunc x : REAL) < x + 1 := by
  simp only [trunc, if_neg (not_le.mpr h)]
  refine ⟨?_, Rat.le_ceil, Rat.ceil_lt⟩
  have h₁ : (x.ceil : REAL) < x + 1 := Rat.ceil_lt
  have h₂ : (x.ceil : REAL) < ((1 : Int) : REAL) := by push_cast; linarith
  have : x.ceil < 1 := by exact_mod_cast h₂
  omega

/-- Truncating an integer changes nothing. -/
@[simp] theorem trunc_intCast (z : Int) : trunc (z : REAL) = z := by
  unfold trunc; split <;> simp

end Sys2Proof.Machine
end

