-- ==== Sys2Proof/Laws/Quantizer.lean ====
section
/-! SUPPORT. The ranges of the quantizers and their inverses on codes (43_quantizer.md rules R140 to R147), and what every chroma
table satisfies (R151, R152). -/

namespace Sys2Proof.Machine

variable {a x : REAL}

theorem qa_bounds (h₀ : 0 ≤ a) (h₁ : a ≤ 1) : 0 ≤ qa a ∧ qa a ≤ 511 := by
  have h := roundAway_of_nonneg (x := a * 511) (by linarith)
  have l : ((-1 : Int) : REAL) < (qa a : REAL) := by push_cast; simp only [qa]; linarith
  have u : ((qa a : Int) : REAL) < ((512 : Int) : REAL) := by push_cast; simp only [qa]; linarith
  have l' : -1 < qa a := by exact_mod_cast l
  have u' : qa a < 512 := by exact_mod_cast u
  omega

theorem qd_bounds (x : REAL) : -15 ≤ qd x ∧ qd x ≤ 15 := by
  have l := le_clamp (x := x) (show (-3 / 10 : REAL) ≤ 3 / 10 by norm_num)
  have u := clamp_le (x := x) (show (-3 / 10 : REAL) ≤ 3 / 10 by norm_num)
  have h := abs_le.mp (abs_sub_roundAway (clamp x (-3 / 10) (3 / 10) * 50))
  have l' : ((-16 : Int) : REAL) < (qd x : REAL) := by push_cast; simp only [qd]; linarith
  have u' : ((qd x : Int) : REAL) < ((16 : Int) : REAL) := by push_cast; simp only [qd]; linarith
  have l'' : -16 < qd x := by exact_mod_cast l'
  have u'' : qd x < 16 := by exact_mod_cast u'
  omega

/-- The clamp of DQA never acts on a 9-bit code. -/
theorem dqa_eq (code : BitVec 9) : dqa code = (code.toNat : REAL) / 511 := by
  have h : (code.toNat : REAL) ≤ 511 := by exact_mod_cast (by have := code.isLt; omega : code.toNat ≤ 511)
  have h₀ : (0 : REAL) ≤ code.toNat := by positivity
  exact clamp_of_mem (by positivity) (by rw [div_le_one (by norm_num)]; exact h)

theorem dqa_bounds (code : BitVec 9) : 0 ≤ dqa code ∧ dqa code ≤ 1 :=
  ⟨le_clamp (by norm_num), clamp_le (by norm_num)⟩

theorem dqd_bounds (code : BitVec 5) : -3 / 10 ≤ dqd code ∧ dqd code ≤ 3 / 10 :=
  ⟨le_clamp (by norm_num), clamp_le (by norm_num)⟩

/-- Quantizing a dequantized average gives the code back. -/
theorem qa_dqa (code : BitVec 9) : qa (dqa code) = (code.toNat : Int) := by
  have : ((code.toNat : REAL) / 511) * 511 = ((code.toNat : Int) : REAL) := by push_cast; ring
  rw [qa, dqa_eq, this, roundAway_intCast]

/-- Quantizing a dequantized detail coefficient gives the code back, −16 excepted, which becomes −15. -/
theorem qd_dqd (code : BitVec 5) : qd (dqd code) = if code.toInt = -16 then -15 else code.toInt := by
  revert code; decide +kernel

theorem refpal_lawful : lawful refpal = true := by decide +kernel

/-- Whatever the instance, its table is a `CHROMA` (R151, R152). -/
theorem table_lawful (ci : ChromaInst) : lawful ci.table = true := by
  cases ci with
  | refpal => exact refpal_lawful
  | bound =>
    change lawful (if lawful Config.chroma then Config.chroma else Machine.refpal) = true
    split
    · assumption
    · exact refpal_lawful

variable {c : ChromaTable}

theorem indexOf_ofIndex (hc : lawful c = true) (i : Idx) : c.indexOf (c.ofIndex i) = i := by
  simp only [lawful, Bool.and_eq_true, List.all_eq_true, List.mem_range, decide_eq_true_eq] at hc
  simpa using (hc.1 i.toNat i.isLt).1

theorem ofIndex_mem (hc : lawful c = true) (i : Idx) : -1 / 2 ≤ c.ofIndex i ∧ c.ofIndex i ≤ 1 / 2 := by
  simp only [lawful, Bool.and_eq_true, List.all_eq_true, List.mem_range, decide_eq_true_eq] at hc
  simpa using (hc.1 i.toNat i.isLt).2

theorem ofIndex_lt_succ (hc : lawful c = true) {n : Nat} (hn : n < 15) :
    c.ofIndex (BitVec.ofNat 4 n) < c.ofIndex (BitVec.ofNat 4 (n + 1)) := by
  simp only [lawful, Bool.and_eq_true, List.all_eq_true, List.mem_range, decide_eq_true_eq] at hc
  exact hc.2 n hn

theorem ofIndex_strictMono (hc : lawful c = true) {i j : Idx} (h : i.toNat < j.toNat) : c.ofIndex i < c.ofIndex j := by
  have key : ∀ d n, n + d + 1 < 16 → c.ofIndex (BitVec.ofNat 4 n) < c.ofIndex (BitVec.ofNat 4 (n + d + 1)) := by
    intro d
    induction d with
    | zero => intro n hn; exact ofIndex_lt_succ hc (by omega)
    | succ d ih => intro n hn; exact (ih n (by omega)).trans (ofIndex_lt_succ hc (by omega))
  have hj := j.isLt
  have := key (j.toNat - i.toNat - 1) i.toNat (by omega)
  rw [show i.toNat + (j.toNat - i.toNat - 1) + 1 = j.toNat by omega] at this
  simpa using this

end Sys2Proof.Machine
end

