-- ==== Sys2Proof/Laws/Color.lean ====
section
/-! SUPPORT. The ranges the color conversion keeps on 8-bit input, and when an output pixel fits its port
(40_color_converter.md rules R92, R93, R98). -/

namespace Sys2Proof.Machine

theorem channel_bounds (c : Byte) : 0 ≤ (c.toNat : REAL) / 255 ∧ (c.toNat : REAL) / 255 ≤ 1 := by
  have h : (c.toNat : REAL) ≤ 255 := by exact_mod_cast (by have := c.isLt; omega : c.toNat ≤ 255)
  exact ⟨by positivity, by rw [div_le_one (by norm_num)]; exact h⟩

/-- Channels in [0,1] give luma in [0,1] and chroma in [−0.5, 0.5]. -/
theorem cscFwd_bounds {p : FloatPixel} (hr : 0 ≤ p.r ∧ p.r ≤ 1) (hg : 0 ≤ p.g ∧ p.g ≤ 1) (hb : 0 ≤ p.b ∧ p.b ≤ 1) :
    (0 ≤ (cscFwd p).y ∧ (cscFwd p).y ≤ 1) ∧ (-1 / 2 ≤ (cscFwd p).pb ∧ (cscFwd p).pb ≤ 1 / 2) ∧
      (-1 / 2 ≤ (cscFwd p).pr ∧ (cscFwd p).pr ≤ 1 / 2) := by
  obtain ⟨r₀, r₁⟩ := hr
  obtain ⟨g₀, g₁⟩ := hg
  obtain ⟨b₀, b₁⟩ := hb
  simp only [cscFwd]
  refine ⟨⟨?_, ?_⟩, ⟨?_, ?_⟩, ⟨?_, ?_⟩⟩ <;> linarith

theorem rgb2ypp_luma (p : RgbIn) : 0 ≤ (rgb2ypp p).y ∧ (rgb2ypp p).y ≤ 1 :=
  (cscFwd_bounds (channel_bounds p.red) (channel_bounds p.green) (channel_bounds p.blue)).1

/-- A number of magnitude below 1023 truncates into every admissible port. -/
theorem channelFits_trunc {port : Option Nat} (hp : ∀ w, port = some w → 11 ≤ w) {x : REAL}
    (h₁ : -1023 ≤ x) (h₂ : x ≤ 1023) : channelFits port (trunc x) = true := by
  cases port with
  | none => rfl
  | some w =>
    have hw := hp w rfl
    have hb : -1023 ≤ trunc x ∧ trunc x ≤ 1023 := by
      rcases lt_or_ge x 0 with h | h
      · obtain ⟨a, b, c⟩ := trunc_of_neg h
        have : ((-1023 : Int) : REAL) ≤ (trunc x : REAL) := by push_cast; linarith
        exact ⟨by exact_mod_cast this, by omega⟩
      · obtain ⟨a, b, c⟩ := trunc_of_nonneg h
        have : ((trunc x : Int) : REAL) ≤ ((1023 : Int) : REAL) := by push_cast; linarith
        exact ⟨by omega, by exact_mod_cast this⟩
    have hpow : (1024 : Int) ≤ 2 ^ (w - 1) := by
      calc (1024 : Int) = 2 ^ 10 := by norm_num
        _ ≤ 2 ^ (w - 1) := pow_le_pow_right₀ (by norm_num) (by omega)
    simp only [channelFits, fitss, show w ≠ 0 by omega, if_false, decide_eq_true_eq]
    omega

/-- A pixel with luma in [−0.9, 1.9] and chroma in [−0.5, 0.5] converts within every admissible port (R98). -/
theorem ypp2rgb_of_bounds {port : Option Nat} (hp : ∀ w, port = some w → 11 ≤ w) {q : ChromaPixel}
    (hy : -9 / 10 ≤ q.y ∧ q.y ≤ 19 / 10) (hb : -1 / 2 ≤ q.pb ∧ q.pb ≤ 1 / 2) (hr : -1 / 2 ≤ q.pr ∧ q.pr ≤ 1 / 2) :
    ypp2rgb port q = .ok (scaleToRgb (cscInv q)) := by
  have f : rgbFits port (scaleToRgb (cscInv q)) = true := by
    simp only [rgbFits, scaleToRgb, cscInv, Bool.and_eq_true]
    refine ⟨⟨?_, ?_⟩, ?_⟩ <;> exact channelFits_trunc hp (by linarith) (by linarith)
  simp [ypp2rgb, f2rgb, f]

end Sys2Proof.Machine
end

