-- ==== Sys2Proof/Laws/Composer.lean ====
section
/-! SUPPORT. The length and the elements of a gathered raster, and the readers of CROP, DECOMP and COMP, said once
(41_block_composer.md rules R110 to R118, 20_memory.md rules R41, R42). -/

namespace Sys2Proof.Machine

variable {α : Type} {W H : Nat} {f : Nat → Nat → Option α}

theorem evenTrunc_even (n : Nat) : evenTrunc n % 2 = 0 := by unfold evenTrunc; omega
theorem evenTrunc_le (n : Nat) : evenTrunc n ≤ n := Nat.sub_le _ _
theorem evenTrunc_of_even {n : Nat} (h : n % 2 = 0) : evenTrunc n = n := by unfold evenTrunc; omega

/-- A row of a raster every place of which has a pixel. -/
theorem filterMap_range_eq_map {g : Nat → Option α} {n : Nat} {v : Nat → α} (h : ∀ j < n, g j = some (v j)) :
    (List.range n).filterMap g = (List.range n).map v := by
  rw [List.filterMap_congr (g := fun j => some (v j)) (fun j hj => h j (List.mem_range.mp hj))]
  rw [← List.filterMap_eq_map]; rfl

/-- A raster every place of which has a pixel, as rows. -/
theorem gather_eq {v : Nat → Nat → α} (h : ∀ i < H, ∀ j < W, f i j = some (v i j)) :
    gather W H f = (List.range H).flatMap fun i => (List.range W).map fun j => v i j := by
  unfold gather
  refine List.flatMap_congr fun i hi => filterMap_range_eq_map fun j hj => h i (List.mem_range.mp hi) j hj

theorem length_rows (W H : Nat) (v : Nat → Nat → α) :
    ((List.range H).flatMap fun i => (List.range W).map fun j => v i j).length = H * W := by
  induction H with
  | zero => simp
  | succ H ih => rw [List.range_succ, List.flatMap_append, List.length_append, ih]; simp [Nat.succ_mul]

theorem getElem?_rows (W H : Nat) (v : Nat → Nat → α) {i j : Nat} (hi : i < H) (hj : j < W) :
    ((List.range H).flatMap fun i => (List.range W).map fun j => v i j)[i * W + j]? = some (v i j) := by
  induction H with
  | zero => omega
  | succ H ih =>
    rw [List.range_succ, List.flatMap_append]
    rcases Nat.lt_succ_iff_lt_or_eq.mp hi with h | rfl
    · rw [List.getElem?_append_left, ih h]
      rw [length_rows]
      calc i * W + j < i * W + W := by omega
        _ = (i + 1) * W := by ring
        _ ≤ H * W := Nat.mul_le_mul_right _ h
    · rw [List.getElem?_append_right (by rw [length_rows]; omega), length_rows]
      simp [hj]

theorem length_gather (h : ∀ i < H, ∀ j < W, (f i j).isSome) : (gather W H f).length = H * W := by
  rcases Nat.eq_zero_or_pos H with rfl | hH
  · simp [gather]
  rcases Nat.eq_zero_or_pos W with rfl | hW
  · simp [gather]
  have d : α := (f 0 0).get (h 0 hH 0 hW)
  rw [gather_eq (v := fun i j => (f i j).getD d), length_rows]
  intro i hi j hj
  obtain ⟨x, hx⟩ := Option.isSome_iff_exists.mp (h i hi j hj)
  simp [hx]

/-- The pixel at row `i`, column `j` of a full gathered raster. -/
theorem getElem?_gather (h : ∀ i < H, ∀ j < W, (f i j).isSome) {i j : Nat} (hi : i < H) (hj : j < W) :
    (gather W H f)[i * W + j]? = f i j := by
  have d : α := (f i j).get (h i hi j hj)
  rw [gather_eq (v := fun i j => (f i j).getD d), getElem?_rows _ _ _ hi hj]
  · obtain ⟨x, hx⟩ := Option.isSome_iff_exists.mp (h i hi j hj)
    simp [hx]
  · intro i hi j hj
    obtain ⟨x, hx⟩ := Option.isSome_iff_exists.mp (h i hi j hj)
    simp [hx]

/-- Two rasters of `W` columns and `H` rows with the same pixels are the same sequence. -/
theorem raster_ext {p q : List α} (hp : p.length = W * H) (hq : q.length = W * H)
    (h : ∀ i < H, ∀ j < W, p[i * W + j]? = q[i * W + j]?) : p = q := by
  apply List.ext_getElem? 
  intro k
  by_cases hk : k < W * H
  · have hW : 0 < W := Nat.pos_of_ne_zero (by rintro rfl; simp at hk)
    have hk' : k / W < H := Nat.div_lt_of_lt_mul hk
    have := h (k / W) hk' (k % W) (Nat.mod_lt _ hW)
    rwa [show k / W * W + k % W = k by rw [Nat.mul_comm]; exact Nat.div_add_mod k W] at this
  · rw [List.getElem?_eq_none (by omega), List.getElem?_eq_none (by omega)]

theorem index_lt {i j w h : Nat} (hi : i < h) (hj : j < w) : i * w + j < w * h := by
  calc i * w + j < i * w + w := by omega
    _ = w * (i + 1) := by ring
    _ ≤ w * h := Nat.mul_le_mul_left _ hi

variable {px : List α} {w h : Nat}

theorem crop_of_length (hl : px.length = w * h) :
    crop px w h = .ok (gather (evenTrunc w) (evenTrunc h) fun i j => px[i * w + j]?, evenTrunc w, evenTrunc h) := by
  simp [crop, hl]

theorem crop_of_ne (hl : px.length ≠ w * h) : crop px w h = .error .size := by simp [crop, hl]

theorem isSome_getElem_raster (hl : px.length = w * h) {i j : Nat} (hi : i < h) (hj : j < w) :
    (px[i * w + j]?).isSome := by
  rw [List.getElem?_eq_getElem (by rw [hl]; exact index_lt hi hj)]; rfl

/-- The cropped raster: its size and its pixels. -/
theorem crop_spec (hl : px.length = w * h) :
    ∃ out, crop px w h = .ok (out, evenTrunc w, evenTrunc h) ∧ out.length = evenTrunc w * evenTrunc h ∧
      ∀ i < evenTrunc h, ∀ j < evenTrunc w, out[i * evenTrunc w + j]? = px[i * w + j]? := by
  have hs : ∀ i < evenTrunc h, ∀ j < evenTrunc w, (px[i * w + j]?).isSome := fun i hi j hj =>
    isSome_getElem_raster hl (lt_of_lt_of_le hi (evenTrunc_le h)) (lt_of_lt_of_le hj (evenTrunc_le w))
  exact ⟨_, crop_of_length hl, by rw [length_gather hs, Nat.mul_comm], fun i hi j hj => getElem?_gather hs hi hj⟩

theorem evenDims_iff : evenDims w h = true ↔ w % 2 = 0 ∧ h % 2 = 0 := by simp [evenDims]

variable {pc : List ChromaPixel} {bs : List Block}

theorem decomp_of_odd (he : ¬ (w % 2 = 0 ∧ h % 2 = 0)) : decomp pc w h = .error .contract := by
  simp [decomp, evenDims, he]

theorem decomp_of_ne (he : w % 2 = 0 ∧ h % 2 = 0) (hl : pc.length ≠ w * h) : decomp pc w h = .error .size := by
  simp [decomp, evenDims, he, hl]

theorem comp_of_odd (he : ¬ (w % 2 = 0 ∧ h % 2 = 0)) : comp bs w h = .error .contract := by
  simp [comp, evenDims, he]

theorem comp_of_ne (he : w % 2 = 0 ∧ h % 2 = 0) (hl : bs.length ≠ (w / 2) * (h / 2)) :
    comp bs w h = .error .size := by
  simp [comp, evenDims, he, hl]

theorem blockAt_eq_some_iff {i j : Nat} {b : Block} :
    blockAt pc w i j = some b ↔
      pc[i * w + j]? = some b.pix1 ∧ pc[i * w + (j + 1)]? = some b.pix2 ∧
      pc[(i + 1) * w + j]? = some b.pix3 ∧ pc[(i + 1) * w + (j + 1)]? = some b.pix4 := by
  unfold blockAt
  split
  · rename_i a b c d h₁ h₂ h₃ h₄
    rw [h₁, h₂, h₃, h₄]
    constructor
    · intro e; cases e; exact ⟨rfl, rfl, rfl, rfl⟩
    · rintro ⟨e₁, e₂, e₃, e₄⟩
      cases e₁; cases e₂; cases e₃; cases e₄; rfl
  · rename_i hx
    refine ⟨fun e => by simp at e, ?_⟩
    rintro ⟨e₁, e₂, e₃, e₄⟩
    exact (hx _ _ _ _ e₁ e₂ e₃ e₄).elim

/-- DECOMP of a raster of the right size: as many Blocks as there are, each with its four pixels. -/
theorem decomp_spec (he : w % 2 = 0 ∧ h % 2 = 0) (hl : pc.length = w * h) :
    ∃ bs, decomp pc w h = .ok bs ∧ bs.length = (w / 2) * (h / 2) ∧
      ∀ bi < h / 2, ∀ bj < w / 2, ∃ b, bs[bi * (w / 2) + bj]? = some b ∧ blockAt pc w (2 * bi) (2 * bj) = some b := by
  have hs : ∀ bi < h / 2, ∀ bj < w / 2, (blockAt pc w (2 * bi) (2 * bj)).isSome := by
    intro bi hi bj hj
    have p := fun i j (hi : i < h) (hj : j < w) => Option.isSome_iff_exists.mp (isSome_getElem_raster hl hi hj)
    obtain ⟨a, ha⟩ := p (2 * bi) (2 * bj) (by omega) (by omega)
    obtain ⟨b, hb⟩ := p (2 * bi) (2 * bj + 1) (by omega) (by omega)
    obtain ⟨c, hc⟩ := p (2 * bi + 1) (2 * bj) (by omega) (by omega)
    obtain ⟨d, hd⟩ := p (2 * bi + 1) (2 * bj + 1) (by omega) (by omega)
    exact Option.isSome_iff_exists.mpr ⟨⟨a, b, c, d⟩, blockAt_eq_some_iff.mpr ⟨ha, hb, hc, hd⟩⟩
  refine ⟨_, by simp [decomp, evenDims, he, hl]; rfl, by rw [length_gather hs, Nat.mul_comm], ?_⟩
  intro bi hi bj hj
  obtain ⟨b, hb⟩ := Option.isSome_iff_exists.mp (hs bi hi bj hj)
  exact ⟨b, by rw [getElem?_gather hs hi hj, hb], hb⟩

/-- COMP of a block list of the right length: as many pixels as there are, each from its Block. -/
theorem comp_spec (he : w % 2 = 0 ∧ h % 2 = 0) (hl : bs.length = (w / 2) * (h / 2)) :
    ∃ out, comp bs w h = .ok out ∧ out.length = w * h ∧
      ∀ i < h, ∀ j < w, out[i * w + j]? = bs[(i / 2) * (w / 2) + j / 2]?.map fun b => Block.pixelAt b i j := by
  have hs : ∀ i < h, ∀ j < w, (bs[(i / 2) * (w / 2) + j / 2]?.map fun b => Block.pixelAt b i j).isSome := by
    intro i hi j hj
    have hk : (i / 2) * (w / 2) + j / 2 < bs.length := by rw [hl]; exact index_lt (by omega) (by omega)
    rw [List.getElem?_eq_getElem hk]; rfl
  exact ⟨_, by simp [comp, evenDims, he, hl], by rw [length_gather hs, Nat.mul_comm],
    fun i hi j hj => getElem?_gather hs hi hj⟩

theorem allOk_eq_ok_of_forall {xs : List (Except Error α)} (hx : ∀ x ∈ xs, ∃ a, x = .ok a) :
    ∃ as, allOk xs = .ok as ∧ xs = as.map .ok := by
  induction xs with
  | nil => exact ⟨[], rfl, rfl⟩
  | cons x xs ih =>
    obtain ⟨a, rfl⟩ := hx x (by simp)
    obtain ⟨as, h₁, h₂⟩ := ih fun y hy => hx y (by simp [hy])
    exact ⟨a :: as, by simp [allOk, h₁], by simp [← h₂]⟩

/-- A sequence of computations succeeds exactly when each does, and then with their values in order. -/
theorem allOk_eq_ok_iff {xs : List (Except Error α)} {as : List α} : allOk xs = .ok as ↔ xs = as.map .ok := by
  induction xs generalizing as with
  | nil => cases as <;> simp [allOk]
  | cons x xs ih =>
    cases x with
    | error e => cases as <;> simp [allOk]
    | ok a =>
      cases as with
      | nil => cases hx : allOk xs <;> simp [allOk, hx]
      | cons b as =>
        cases hx : allOk xs with
        | error e =>
          have : xs ≠ as.map .ok := fun h => by rw [ih.mpr h] at hx; simp at hx
          simp [allOk, hx, this]
        | ok as' =>
          have hm : xs = as.map .ok ↔ as' = as := by
            rw [← ih, hx]; exact ⟨fun h => by injection h, fun h => by rw [h]⟩
          simp [allOk, hx, hm]

end Sys2Proof.Machine
end

