-- ==== Sys2Proof/Laws/PerInstr.lean ====
section
/-! SUPPORT. Families of statements made per instruction. OpcodeByte: the top byte of an instruction's command word is its
opcode (30_encoding.md rule R66). -/

namespace Sys2Proof.Laws

theorem cmdOp_append (op : BitVec 8) (ps : BitVec 24) : cmdOp (op ++ ps) = op := by
  apply BitVec.eq_of_getLsbD_eq
  intro i hi
  simp only [cmdOp, BitVec.getLsbD_extractLsb', BitVec.getLsbD_append]
  simp [hi]

/-- The decoder finds the operation by `CMD[31:24]`, and the encoder puts the opcode there. -/
def OpcodeByte.Statement (i : Instr) : Prop := cmdOp (encode i) = i.opcode

theorem OpcodeByte.rgb2f : OpcodeByte.Statement .rgb2f := cmdOp_append _ _
theorem OpcodeByte.cscfwd : OpcodeByte.Statement .cscfwd := cmdOp_append _ _
theorem OpcodeByte.cscinv : OpcodeByte.Statement .cscinv := cmdOp_append _ _
theorem OpcodeByte.f2rgb : OpcodeByte.Statement .f2rgb := cmdOp_append _ _
theorem OpcodeByte.even : OpcodeByte.Statement .even := cmdOp_append _ _
theorem OpcodeByte.crop : OpcodeByte.Statement .crop := cmdOp_append _ _
theorem OpcodeByte.decomp : OpcodeByte.Statement .decomp := cmdOp_append _ _
theorem OpcodeByte.comp : OpcodeByte.Statement .comp := cmdOp_append _ _
theorem OpcodeByte.btfwd : OpcodeByte.Statement .btfwd := cmdOp_append _ _
theorem OpcodeByte.btinv : OpcodeByte.Statement .btinv := cmdOp_append _ _
theorem OpcodeByte.qa : OpcodeByte.Statement .qa := cmdOp_append _ _
theorem OpcodeByte.dqa : OpcodeByte.Statement .dqa := cmdOp_append _ _
theorem OpcodeByte.qd : OpcodeByte.Statement .qd := cmdOp_append _ _
theorem OpcodeByte.dqd : OpcodeByte.Statement .dqd := cmdOp_append _ _
theorem OpcodeByte.qch : OpcodeByte.Statement .qch := cmdOp_append _ _
theorem OpcodeByte.dqch : OpcodeByte.Statement .dqch := cmdOp_append _ _
theorem OpcodeByte.getu (wd off : Nat) : OpcodeByte.Statement (.getu wd off) := cmdOp_append _ _
theorem OpcodeByte.gets (wd off : Nat) : OpcodeByte.Statement (.gets wd off) := cmdOp_append _ _
theorem OpcodeByte.setu (wd off : Nat) : OpcodeByte.Statement (.setu wd off) := cmdOp_append _ _
theorem OpcodeByte.sets (wd off : Nat) : OpcodeByte.Statement (.sets wd off) := cmdOp_append _ _
theorem OpcodeByte.pack : OpcodeByte.Statement .pack := cmdOp_append _ _
theorem OpcodeByte.unpack : OpcodeByte.Statement .unpack := cmdOp_append _ _
theorem OpcodeByte.w2b : OpcodeByte.Statement .w2b := cmdOp_append _ _
theorem OpcodeByte.b2w : OpcodeByte.Statement .b2w := cmdOp_append _ _
theorem OpcodeByte.encode : OpcodeByte.Statement .encode := cmdOp_append _ _
theorem OpcodeByte.decode : OpcodeByte.Statement .decode := cmdOp_append _ _

end Sys2Proof.Laws
end

