-- ==== Sys2Proof/Laws/Decode.lean ====
section
/-! SUPPORT. How the command word splits into its fields and what the two formats of the decoder accept
(30_encoding.md rules R66, R67, R72). -/

namespace Sys2Proof.Laws

/-- The two parameters of format F are read back as they were written, and the zero byte above them is zero. -/
theorem params_append (op : BitVec 8) (wd off : Nat) (hw : wd < 256) (ho : off < 256) :
    cmdWd (op ++ (0#8 ++ BitVec.ofNat 8 wd ++ BitVec.ofNat 8 off)) = wd ∧
    cmdOff (op ++ (0#8 ++ BitVec.ofNat 8 wd ++ BitVec.ofNat 8 off)) = off ∧
    (op ++ (0#8 ++ BitVec.ofNat 8 wd ++ BitVec.ofNat 8 off)).extractLsb' 16 8 = 0#8 := by
  have hwd : (op ++ (0#8 ++ BitVec.ofNat 8 wd ++ BitVec.ofNat 8 off)).extractLsb' 8 8 = BitVec.ofNat 8 wd := by
    apply BitVec.eq_of_getLsbD_eq
    intro i hi
    simp only [BitVec.getLsbD_extractLsb', BitVec.getLsbD_append]
    simp [hi, show 8 + i < 24 by omega, show ¬ (8 + i < 8) by omega]
  have hof : (op ++ (0#8 ++ BitVec.ofNat 8 wd ++ BitVec.ofNat 8 off)).extractLsb' 0 8 = BitVec.ofNat 8 off := by
    apply BitVec.eq_of_getLsbD_eq
    intro i hi
    simp only [BitVec.getLsbD_extractLsb', BitVec.getLsbD_append]
    simp [hi, show i < 24 by omega]
  refine ⟨?_, ?_, ?_⟩
  · rw [cmdWd, hwd]; simp; omega
  · rw [cmdOff, hof]; simp; omega
  · apply BitVec.eq_of_getLsbD_eq
    intro i hi
    simp only [BitVec.getLsbD_extractLsb', BitVec.getLsbD_append]
    simp [hi, show 16 + i < 24 by omega, show ¬ (16 + i < 8) by omega, show ¬ (16 + i - 8 < 8) by omega]

/-- A command word is its opcode byte followed by the 24 bits below it. -/
theorem word_split (cmd : BitVec 32) : cmd = cmdOp cmd ++ cmd.extractLsb' 0 24 := by
  apply BitVec.eq_of_getLsbD_eq
  intro i hi
  simp only [cmdOp, BitVec.getLsbD_append, BitVec.getLsbD_extractLsb']
  by_cases h : i < 24
  · simp [h]
  · simp [h, show i - 24 < 8 by omega, show 24 + (i - 24) = i by omega]

/-- The low 24 bits are three bytes. -/
theorem low_split (cmd : BitVec 32) :
    cmd.extractLsb' 0 24 = cmd.extractLsb' 16 8 ++ cmd.extractLsb' 8 8 ++ cmd.extractLsb' 0 8 := by
  apply BitVec.eq_of_getLsbD_eq
  intro i hi
  simp only [BitVec.getLsbD_append, BitVec.getLsbD_extractLsb']
  by_cases h : i < 8
  · simp [h, hi]
  · by_cases h' : i < 16
    · simp [h, hi, show i - 8 < 8 by omega, show 8 + (i - 8) = i by omega]
    · simp [h, hi, show ¬ (i - 8 < 8) by omega, show i - 8 - 8 < 8 by omega, show 16 + (i - 8 - 8) = i by omega]

theorem cmdWd_lt (cmd : BitVec 32) : cmdWd cmd < 256 := (cmd.extractLsb' 8 8).isLt

theorem cmdOff_lt (cmd : BitVec 32) : cmdOff cmd < 256 := (cmd.extractLsb' 0 8).isLt

/-- What format N accepts. -/
theorem decodeN_eq_ok_iff {cmd : BitVec 32} {i j : Instr} :
    decodeN cmd i = .ok j ↔ cmd.extractLsb' 0 24 = 0#24 ∧ i = j := by
  unfold decodeN
  split <;> simp [*]

/-- What format F accepts. -/
theorem decodeF_eq_ok_iff {cmd : BitVec 32} {mk : Nat → Nat → Instr} {j : Instr} :
    decodeF cmd mk = .ok j ↔ cmd.extractLsb' 16 8 = 0#8 ∧ mk (cmdWd cmd) (cmdOff cmd) = j := by
  unfold decodeF
  split <;> simp [*]

end Sys2Proof.Laws
end

