-- ==== Sys2Proof/Laws/Packer.lean ====
section
/-! SUPPORT. The fields of a packed Codeword, when PACK fails, and the four-byte serialization (45_word_packer.md rules R181 to
R185). -/

namespace Sys2Proof.Machine

/-- The accumulator of PACK after its six insertions. -/
def packAcc (A : Nat) (B C D : Int) (pbi pri : Idx) : Acc :=
  insertBits 4 0 (insertBits 4 4 (insertBits 5 8 (insertBits 5 13 (insertBits 5 18 (insertBits 9 23 0 A)
    (B % 2 ^ 5).toNat) (C % 2 ^ 5).toNat) (D % 2 ^ 5).toNat) pbi.toNat) pri.toNat

theorem fitss_qd (x : REAL) : fitss (qd x) 5 = true := by
  rw [fitss_iff_of_pos (by norm_num)]; have := qd_bounds x; norm_num; omega

theorem fitsu_idx (i : Idx) : fitsu (i.toNat : Int) 4 = true := by
  rw [fitsu_iff]; have := i.isLt; norm_num; omega

/-- PACK fails exactly when the quantized average does not fit 9 bits (R181). -/
theorem pack_eq (c : ChromaTable) (blk : Block) :
    pack c blk =
      if 0 ≤ qa (btFwd (lumas blk)).a ∧ qa (btFwd (lumas blk)).a ≤ 511 then
        .ok ((packAcc (qa (btFwd (lumas blk)).a).toNat (qd (btFwd (lumas blk)).b) (qd (btFwd (lumas blk)).c)
          (qd (btFwd (lumas blk)).d) (qch c (pbs blk)) (qch c (prs blk))).extractLsb' 0 32)
      else .error .fieldOverflow := by
  unfold pack
  simp only [bind, Except.bind, pure, Except.pure]
  by_cases h : 0 ≤ qa (btFwd (lumas blk)).a ∧ qa (btFwd (lumas blk)).a ≤ 511
  · rw [if_pos h, setu_of_fits (by norm_num) (by rw [fitsu_iff]; norm_num; omega)]
    simp only [sets_of_fits (show 5 + 18 ≤ 64 by norm_num) (fitss_qd _),
      sets_of_fits (show 5 + 13 ≤ 64 by norm_num) (fitss_qd _),
      sets_of_fits (show 5 + 8 ≤ 64 by norm_num) (fitss_qd _),
      setu_of_fits (show 4 + 4 ≤ 64 by norm_num) (fitsu_idx _),
      setu_of_fits (show 4 + 0 ≤ 64 by norm_num) (fitsu_idx _), Int.toNat_natCast]
    rfl
  · have : fitsu (qa (btFwd (lumas blk)).a) 9 = false := by
      rw [← Bool.not_eq_true, fitsu_iff]; norm_num; omega
    rw [if_neg h]; simp [setu, inContract, this]

/-- The low word of an accumulator, read as a 64-bit accumulator again, has the same fields below bit 32. -/
theorem fieldBits_low {wd off : Nat} (h : off + wd ≤ 32) (acc : Acc) :
    fieldBits wd off ((acc.extractLsb' 0 32).setWidth 64) = fieldBits wd off acc := by
  apply Nat.eq_of_testBit_eq
  intro i
  rw [testBit_fieldBits, testBit_fieldBits]
  by_cases hi : i < wd
  · have h₁ : off + i < 32 := by omega
    have h₂ : off + i < 64 := by omega
    simp [hi, h₁, h₂]
  · simp [hi]

variable {A : Nat} {B C D : Int} {pbi pri : Idx}

theorem packAcc_fields (hA : A < 512) :
    fieldBits 9 23 (packAcc A B C D pbi pri) = A ∧
    fieldBits 5 18 (packAcc A B C D pbi pri) = (B % 2 ^ 5).toNat ∧
    fieldBits 5 13 (packAcc A B C D pbi pri) = (C % 2 ^ 5).toNat ∧
    fieldBits 5 8 (packAcc A B C D pbi pri) = (D % 2 ^ 5).toNat ∧
    fieldBits 4 4 (packAcc A B C D pbi pri) = pbi.toNat ∧
    fieldBits 4 0 (packAcc A B C D pbi pri) = pri.toNat := by
  have hA' : A < 2 ^ 9 := by omega
  have hB := emod_toNat_lt B 5
  have hC := emod_toNat_lt C 5
  have hD := emod_toNat_lt D 5
  have hp : pbi.toNat < 2 ^ 4 := pbi.isLt
  have hr : pri.toNat < 2 ^ 4 := pri.isLt
  unfold packAcc
  refine ⟨?_, ?_, ?_, ?_, ?_, ?_⟩
  · rw [fieldBits_insertBits_of_disjoint hr (by norm_num) (by omega),
      fieldBits_insertBits_of_disjoint hp (by norm_num) (by omega),
      fieldBits_insertBits_of_disjoint hD (by norm_num) (by omega),
      fieldBits_insertBits_of_disjoint hC (by norm_num) (by omega),
      fieldBits_insertBits_of_disjoint hB (by norm_num) (by omega), fieldBits_insertBits hA' (by norm_num)]
  · rw [fieldBits_insertBits_of_disjoint hr (by norm_num) (by omega),
      fieldBits_insertBits_of_disjoint hp (by norm_num) (by omega),
      fieldBits_insertBits_of_disjoint hD (by norm_num) (by omega),
      fieldBits_insertBits_of_disjoint hC (by norm_num) (by omega), fieldBits_insertBits hB (by norm_num)]
  · rw [fieldBits_insertBits_of_disjoint hr (by norm_num) (by omega),
      fieldBits_insertBits_of_disjoint hp (by norm_num) (by omega),
      fieldBits_insertBits_of_disjoint hD (by norm_num) (by omega), fieldBits_insertBits hC (by norm_num)]
  · rw [fieldBits_insertBits_of_disjoint hr (by norm_num) (by omega),
      fieldBits_insertBits_of_disjoint hp (by norm_num) (by omega), fieldBits_insertBits hD (by norm_num)]
  · rw [fieldBits_insertBits_of_disjoint hr (by norm_num) (by omega), fieldBits_insertBits hp (by norm_num)]
  · rw [fieldBits_insertBits hr (by norm_num)]

/-- A Codeword is its six fields, which cover all 32 bits (R61). -/
theorem codeword_eq_fields (w : Codeword) :
    w.toNat = fieldBits 9 23 (w.setWidth 64) * 2 ^ 23 + fieldBits 5 18 (w.setWidth 64) * 2 ^ 18 +
      fieldBits 5 13 (w.setWidth 64) * 2 ^ 13 + fieldBits 5 8 (w.setWidth 64) * 2 ^ 8 +
      fieldBits 4 4 (w.setWidth 64) * 2 ^ 4 + fieldBits 4 0 (w.setWidth 64) := by
  have hw := w.isLt
  have hs : (w.setWidth 64).toNat = w.toNat := by simp; omega
  simp only [fieldBits_eq, hs]
  omega

/-- The signed field is the two's-complement value of its bits (R62). -/
theorem fieldSigned_five {off : Nat} (acc : Acc) :
    fieldSigned 5 off acc = (BitVec.ofNat 5 (fieldBits 5 off acc)).toInt := by
  have h : fieldBits 5 off acc < 32 := fieldBits_lt 5 off acc
  have : ∀ u : Nat, u < 32 → (if 1 ≤ 5 ∧ u.testBit (5 - 1) = true then (u : Int) - 2 ^ 5 else (u : Int)) =
      (BitVec.ofNat 5 u).toInt := by decide
  exact this _ h

theorem getLsbD_b2w (b0 b1 b2 b3 : Byte) (i : Nat) :
    (b2w b0 b1 b2 b3).getLsbD i =
      if i < 8 then b3.getLsbD i else if i < 16 then b2.getLsbD (i - 8)
      else if i < 24 then b1.getLsbD (i - 16) else b0.getLsbD (i - 24) := by
  simp only [b2w, BitVec.getLsbD_append, Nat.sub_sub]
  by_cases h₁ : i < 8
  · simp [h₁]
  by_cases h₂ : i < 16
  · simp [h₁, h₂, show i - 8 < 8 by omega]
  by_cases h₃ : i < 24
  · simp [h₁, h₂, h₃, show ¬ (i - 8 < 8) by omega, show i - 16 < 8 by omega]
  · simp [h₁, h₂, h₃, show ¬ (i - 8 < 8) by omega, show ¬ (i - 16 < 8) by omega]

/-- B2W is the inverse of W2B (R184). -/
theorem b2w_w2b (w : Codeword) : b2w (w2b w).1 (w2b w).2.1 (w2b w).2.2.1 (w2b w).2.2.2 = w := by
  apply BitVec.eq_of_getLsbD_eq
  intro i hi
  rw [getLsbD_b2w]
  simp only [w2b, BitVec.getLsbD_extractLsb']
  split_ifs
  · simp [*]
  · rw [show 8 + (i - 8) = i by omega]; simp; omega
  · rw [show 16 + (i - 16) = i by omega]; simp; omega
  · rw [show 24 + (i - 24) = i by omega]; simp; omega

/-- W2B is the inverse of B2W (R184). -/
theorem w2b_b2w (b0 b1 b2 b3 : Byte) : w2b (b2w b0 b1 b2 b3) = (b0, b1, b2, b3) := by
  have e : ∀ (k : Nat) (b : Byte), (∀ i < 8, (b2w b0 b1 b2 b3).getLsbD (k + i) = b.getLsbD i) →
      (b2w b0 b1 b2 b3).extractLsb' k 8 = b := by
    intro k b h
    apply BitVec.eq_of_getLsbD_eq
    intro i hi
    rw [BitVec.getLsbD_extractLsb']
    simp [hi, h i hi]
  simp only [w2b]
  rw [e 24 b0, e 16 b1, e 8 b2, e 0 b3]
  all_goals intro i hi; rw [getLsbD_b2w]
  · simp [hi]
  · rw [if_neg (by omega), if_pos (by omega)]; congr 1; omega
  · rw [if_neg (by omega), if_neg (by omega), if_pos (by omega)]; congr 1; omega
  · rw [if_neg (by omega), if_neg (by omega), if_neg (by omega)]; congr 1; omega

/-- A field of the low word, as a slice of the word. -/
theorem ofNat_fieldBits {wd off : Nat} (w : Codeword) (h : wd + off ≤ 32) :
    BitVec.ofNat wd (fieldBits wd off (w.setWidth 64)) = w.extractLsb' off wd := by
  apply BitVec.eq_of_getLsbD_eq
  intro i hi
  rw [BitVec.getLsbD_ofNat, testBit_fieldBits]
  simp [hi, show off + i < 64 by omega]

/-- A signed 5-bit field of the low word, as a slice of the word. -/
theorem ofInt_fieldSigned {off : Nat} (w : Codeword) (h : 5 + off ≤ 32) :
    BitVec.ofInt 5 (fieldSigned 5 off (w.setWidth 64)) = w.extractLsb' off 5 := by
  rw [fieldSigned_five, ofNat_fieldBits w h, BitVec.ofInt_toInt]

/-- UNPACK in terms of the six slices of the word (R60, R182). -/
theorem unpack_eq (c : ChromaTable) (w : Codeword) :
    unpack c w =
      let y := btInv ⟨dqa (w.extractLsb' 23 9), dqd (w.extractLsb' 18 5), dqd (w.extractLsb' 13 5),
        dqd (w.extractLsb' 8 5)⟩
      let pb := c.ofIndex (w.extractLsb' 4 4)
      let pr := c.ofIndex (w.extractLsb' 0 4)
      ⟨⟨y.v1, pb, pr⟩, ⟨y.v2, pb, pr⟩, ⟨y.v3, pb, pr⟩, ⟨y.v4, pb, pr⟩⟩ := by
  unfold unpack
  simp only [dqch]
  rw [ofNat_fieldBits w (by norm_num), ofInt_fieldSigned w (by norm_num), ofInt_fieldSigned w (by norm_num),
    ofInt_fieldSigned w (by norm_num), ofNat_fieldBits w (by norm_num), ofNat_fieldBits w (by norm_num)]

end Sys2Proof.Machine
end

