-- ==== Sys2Proof/Laws/Pipeline.lean ====
section
/-! SUPPORT. The stream of words and the words of a stream, and what ENCODE and DECODE compute, said once (46_pipeline.md
rules R200 to R210, 20_memory.md rules R43, R44). -/

namespace Sys2Proof.Machine

@[simp] theorem length_streamOf (ws : List Codeword) : (streamOf ws).length = 4 * ws.length := by
  induction ws with
  | nil => rfl
  | cons w ws ih => simp [streamOf, ih]; omega

@[simp] theorem wordsOf_streamOf (ws : List Codeword) : wordsOf (streamOf ws) = ws := by
  induction ws with
  | nil => rfl
  | cons w ws ih => simp only [streamOf, wordsOf, ih, b2w_w2b]

theorem length_wordsOf : ∀ st : List Byte, (wordsOf st).length = st.length / 4
  | b0 :: b1 :: b2 :: b3 :: rest => by
    have := length_wordsOf rest
    simp only [wordsOf, List.length_cons, this]; omega
  | [] => by simp [wordsOf]
  | [_] => by simp [wordsOf]
  | [_, _] => by simp [wordsOf]
  | [_, _, _] => by simp [wordsOf]

/-- Word `k` of a stream is bytes `4k` to `4k+3`, the first most significant (R43, R44). -/
theorem getElem?_wordsOf : ∀ (st : List Byte) (k : Nat) (b0 b1 b2 b3 : Byte), st[4 * k]? = some b0 →
    st[4 * k + 1]? = some b1 → st[4 * k + 2]? = some b2 → st[4 * k + 3]? = some b3 →
    (wordsOf st)[k]? = some (b2w b0 b1 b2 b3)
  | c0 :: c1 :: c2 :: c3 :: rest, 0, b0, b1, b2, b3 => by
    intro h₀ h₁ h₂ h₃
    simp at h₀ h₁ h₂ h₃
    simp [wordsOf, h₀, h₁, h₂, h₃]
  | c0 :: c1 :: c2 :: c3 :: rest, k + 1, b0, b1, b2, b3 => by
    intro h₀ h₁ h₂ h₃
    have e : ∀ d, (c0 :: c1 :: c2 :: c3 :: rest)[4 * (k + 1) + d]? = rest[4 * k + d]? := by
      intro d; rw [show 4 * (k + 1) + d = (4 * k + d) + 4 by omega]; simp
    have e₀ := e 0
    simp only [Nat.add_zero] at e₀
    rw [e₀] at h₀; rw [e 1] at h₁; rw [e 2] at h₂; rw [e 3] at h₃
    simpa [wordsOf] using getElem?_wordsOf rest k b0 b1 b2 b3 h₀ h₁ h₂ h₃
  | [], k, _, _, _, _ => by simp
  | [_], k, _, _, _, _ => by rcases k with _ | k <;> simp
  | [_, _], k, _, _, _, _ => by rcases k with _ | k <;> simp
  | [_, _, _], k, _, _, _, _ => by rcases k with _ | k <;> simp

/-- The bytes of word `k` in the stream of a list of words (R43, R44). -/
theorem getElem?_streamOf : ∀ (ws : List Codeword) (k : Nat) (w : Codeword), ws[k]? = some w →
    (streamOf ws)[4 * k]? = some (w2b w).1 ∧ (streamOf ws)[4 * k + 1]? = some (w2b w).2.1 ∧
    (streamOf ws)[4 * k + 2]? = some (w2b w).2.2.1 ∧ (streamOf ws)[4 * k + 3]? = some (w2b w).2.2.2
  | [], k, w => by simp
  | v :: ws, 0, w => by
    intro h; simp at h; subst h; simp [streamOf]
  | v :: ws, k + 1, w => by
    intro h
    simp at h
    have e : ∀ d, (streamOf (v :: ws))[4 * (k + 1) + d]? = (streamOf ws)[4 * k + d]? := by
      intro d; rw [show 4 * (k + 1) + d = (4 * k + d) + 4 by omega]; simp [streamOf]
    have e₀ := e 0
    simp only [Nat.add_zero] at e₀
    rw [e₀, e 1, e 2, e 3]
    exact getElem?_streamOf ws k w h

/-- A Block all of whose luma values are in [0,1] packs (R181, R204). -/
theorem pack_ok_of_luma (c : ChromaTable) {b : Block} (h₁ : 0 ≤ b.pix1.y ∧ b.pix1.y ≤ 1)
    (h₂ : 0 ≤ b.pix2.y ∧ b.pix2.y ≤ 1) (h₃ : 0 ≤ b.pix3.y ∧ b.pix3.y ≤ 1) (h₄ : 0 ≤ b.pix4.y ∧ b.pix4.y ≤ 1) :
    ∃ w, pack c b = .ok w := by
  rw [pack_eq, if_pos (qa_bounds (by simp only [btFwd, lumas]; linarith) (by simp only [btFwd, lumas]; linarith))]
  exact ⟨_, rfl⟩

/-- What UNPACK gives has luma in [−0.9, 1.9] and chroma in [−0.5, 0.5] (R98, R131). -/
theorem unpack_bounds {c : ChromaTable} (hc : lawful c = true) (w : Codeword) (i j : Nat) :
    let q := Block.pixelAt (unpack c w) i j
    (-9 / 10 ≤ q.y ∧ q.y ≤ 19 / 10) ∧ (-1 / 2 ≤ q.pb ∧ q.pb ≤ 1 / 2) ∧ (-1 / 2 ≤ q.pr ∧ q.pr ≤ 1 / 2) := by
  have hb := ofIndex_mem hc (BitVec.ofNat 4 (fieldBits 4 4 (w.setWidth 64)))
  have hr := ofIndex_mem hc (BitVec.ofNat 4 (fieldBits 4 0 (w.setWidth 64)))
  obtain ⟨a₀, a₁⟩ := dqa_bounds (BitVec.ofNat 9 (fieldBits 9 23 (w.setWidth 64)))
  obtain ⟨b₀, b₁⟩ := dqd_bounds (BitVec.ofInt 5 (fieldSigned 5 18 (w.setWidth 64)))
  obtain ⟨c₀, c₁⟩ := dqd_bounds (BitVec.ofInt 5 (fieldSigned 5 13 (w.setWidth 64)))
  obtain ⟨d₀, d₁⟩ := dqd_bounds (BitVec.ofInt 5 (fieldSigned 5 8 (w.setWidth 64)))
  suffices key : ∀ q, q = Block.pixelAt (unpack c w) i j → (-9 / 10 ≤ q.y ∧ q.y ≤ 19 / 10) ∧
      (-1 / 2 ≤ q.pb ∧ q.pb ≤ 1 / 2) ∧ (-1 / 2 ≤ q.pr ∧ q.pr ≤ 1 / 2) from key _ rfl
  intro q hq
  unfold Block.pixelAt unpack at hq
  simp only [btInv, dqch] at hq
  split_ifs at hq <;> subst hq <;> refine ⟨⟨?_, ?_⟩, hb, hr⟩ <;> simp only <;> linarith

theorem evenTrunc_half (n : Nat) : evenTrunc n / 2 = n / 2 := by unfold evenTrunc; omega

/-- An element of a raster, by its row and column. -/
theorem mem_raster {α : Type} {xs : List α} {x : α} {W H : Nat} (hl : xs.length = W * H) (hx : x ∈ xs) :
    ∃ i < H, ∃ j < W, xs[i * W + j]? = some x := by
  obtain ⟨k, hk⟩ := List.getElem?_of_mem hx
  have hkl : k < W * H := by
    by_contra hn
    rw [List.getElem?_eq_none (by omega)] at hk
    cases hk
  have hW : 0 < W := Nat.pos_of_ne_zero (by rintro rfl; simp at hkl)
  refine ⟨k / W, Nat.div_lt_of_lt_mul hkl, k % W, Nat.mod_lt _ hW, ?_⟩
  rwa [show k / W * W + k % W = k by rw [Nat.mul_comm]; exact Nat.div_add_mod k W]

/-- A computation over a raster that succeeds at every place: the results, place by place. -/
theorem allOk_map_getElem? {α β : Type} {f : α → Except Error β} {xs : List α} {as : List β}
    (h : xs.map f = as.map .ok) {k : Nat} {x : α} {a : β} (hx : xs[k]? = some x) (ha : f x = .ok a) :
    as[k]? = some a := by
  have e := congrArg (·[k]?) h
  simp only [List.getElem?_map, hx, Option.map_some, ha] at e
  obtain ⟨a', h₁, h₂⟩ := Option.map_eq_some_iff.mp e.symm
  injection h₂ with h₂
  rw [h₁, h₂]

/-- What ENCODE gives on a raster of the right length: one word for each Block of the even part, in block order, and the
even-truncated dimensions; it never fails (R200 to R204). -/
theorem encodeImage_spec (c : ChromaTable) {px : List RgbIn} {w h : Nat} (hl : px.length = w * h) :
    ∃ ws : List Codeword, encodeImage c px w h = .ok (streamOf ws, evenTrunc w, evenTrunc h) ∧
      ws.length = (w / 2) * (h / 2) ∧
      ∀ bi < h / 2, ∀ bj < w / 2, ∃ (p1 p2 p3 p4 : RgbIn) (word : Codeword),
        px[2 * bi * w + 2 * bj]? = some p1 ∧ px[2 * bi * w + (2 * bj + 1)]? = some p2 ∧
        px[(2 * bi + 1) * w + 2 * bj]? = some p3 ∧ px[(2 * bi + 1) * w + (2 * bj + 1)]? = some p4 ∧
        pack c ⟨rgb2ypp p1, rgb2ypp p2, rgb2ypp p3, rgb2ypp p4⟩ = .ok word ∧ ws[bi * (w / 2) + bj]? = some word := by
  obtain ⟨out, ho, hol, hat⟩ := crop_spec hl
  obtain ⟨bs, hb, hbl, hbat⟩ := decomp_spec (pc := out.map rgb2ypp) (w := evenTrunc w) (h := evenTrunc h)
    ⟨evenTrunc_even _, evenTrunc_even _⟩ (by simp [hol])
  rw [evenTrunc_half, evenTrunc_half] at hbl hbat
  have ew : evenTrunc w = w - w % 2 := rfl
  have eh : evenTrunc h = h - h % 2 := rfl
  have key : ∀ bi < h / 2, ∀ bj < w / 2, ∃ (p1 p2 p3 p4 : RgbIn) (word : Codeword),
      px[2 * bi * w + 2 * bj]? = some p1 ∧ px[2 * bi * w + (2 * bj + 1)]? = some p2 ∧
      px[(2 * bi + 1) * w + 2 * bj]? = some p3 ∧ px[(2 * bi + 1) * w + (2 * bj + 1)]? = some p4 ∧
      pack c ⟨rgb2ypp p1, rgb2ypp p2, rgb2ypp p3, rgb2ypp p4⟩ = .ok word ∧
      bs[bi * (w / 2) + bj]? = some ⟨rgb2ypp p1, rgb2ypp p2, rgb2ypp p3, rgb2ypp p4⟩ := by
    intro bi hi bj hj
    obtain ⟨b, hb₁, hb₂⟩ := hbat bi hi bj hj
    rw [blockAt_eq_some_iff] at hb₂
    simp only [List.getElem?_map] at hb₂
    rw [hat _ (by omega) _ (by omega), hat _ (by omega) _ (by omega), hat _ (by omega) _ (by omega),
      hat _ (by omega) _ (by omega)] at hb₂
    simp only [Option.map_eq_some_iff] at hb₂
    obtain ⟨⟨p1, g1, h1⟩, ⟨p2, g2, h2⟩, ⟨p3, g3, h3⟩, ⟨p4, g4, h4⟩⟩ := hb₂
    obtain ⟨word, hw⟩ := pack_ok_of_luma c (b := ⟨rgb2ypp p1, rgb2ypp p2, rgb2ypp p3, rgb2ypp p4⟩)
      (rgb2ypp_luma p1) (rgb2ypp_luma p2) (rgb2ypp_luma p3) (rgb2ypp_luma p4)
    refine ⟨p1, p2, p3, p4, word, g1, g2, g3, g4, hw, ?_⟩
    obtain ⟨b1, b2, b3, b4⟩ := b
    simp only at h1 h2 h3 h4
    rw [hb₁, h1, h2, h3, h4]
  have ok : ∀ x ∈ bs.map (pack c), ∃ a, x = Except.ok a := by
    intro x hx
    obtain ⟨b, hb', rfl⟩ := List.mem_map.mp hx
    obtain ⟨bi, hi, bj, hj, hk⟩ := mem_raster hbl hb'
    obtain ⟨p1, p2, p3, p4, word, -, -, -, -, hw, hbk⟩ := key bi hi bj hj
    cases hk.symm.trans hbk
    exact ⟨word, hw⟩
  obtain ⟨ws, h₁, h₂⟩ := allOk_eq_ok_of_forall ok
  refine ⟨ws, by simp [encodeImage, packAll, ho, hb, h₁, bind, Except.bind, pure, Except.pure], ?_, ?_⟩
  · have := congrArg List.length h₂
    simp only [List.length_map] at this
    omega
  · intro bi hi bj hj
    obtain ⟨p1, p2, p3, p4, word, g1, g2, g3, g4, hw, hbk⟩ := key bi hi bj hj
    exact ⟨p1, p2, p3, p4, word, g1, g2, g3, g4, hw, allOk_map_getElem? h₂ hbk hw⟩

/-- What DECODE gives on a stream of the right length and an admissible port: it never fails, and each pixel is that of its
word (R98, R205, R207). -/
theorem decodeImage_spec {c : ChromaTable} (hc : lawful c = true) {port : Option Nat}
    (hp : ∀ n, port = some n → 11 ≤ n) {st : List Byte} {w h : Nat} (hl : st.length = 4 * ((w / 2) * (h / 2))) :
    ∃ px, decodeImage c port st w h = .ok (px, evenTrunc w, evenTrunc h) ∧
      px.length = evenTrunc w * evenTrunc h ∧
      ∀ i < evenTrunc h, ∀ j < evenTrunc w, ∃ word, (wordsOf st)[(i / 2) * (w / 2) + j / 2]? = some word ∧
        px[i * evenTrunc w + j]? = some (scaleToRgb (cscInv (Block.pixelAt (unpack c word) i j))) := by
  have hwl : (wordsOf st).length = (w / 2) * (h / 2) := by rw [length_wordsOf, hl]; omega
  obtain ⟨cv, hcv, hcl, hat⟩ := comp_spec (bs := (wordsOf st).map (unpack c)) (w := evenTrunc w)
    (h := evenTrunc h) ⟨evenTrunc_even _, evenTrunc_even _⟩ (by simp [hwl, evenTrunc_half])
  rw [evenTrunc_half] at hat
  have ew : evenTrunc w = w - w % 2 := rfl
  have eh : evenTrunc h = h - h % 2 := rfl
  have key : ∀ i < evenTrunc h, ∀ j < evenTrunc w, ∃ word, (wordsOf st)[(i / 2) * (w / 2) + j / 2]? = some word ∧
      cv[i * evenTrunc w + j]? = some (Block.pixelAt (unpack c word) i j) := by
    intro i hi j hj
    have hk : (i / 2) * (w / 2) + j / 2 < (wordsOf st).length := by rw [hwl]; exact index_lt (by omega) (by omega)
    refine ⟨_, List.getElem?_eq_getElem hk, ?_⟩
    rw [hat i hi j hj, List.getElem?_map, List.getElem?_eq_getElem hk]; rfl
  have yp : ∀ word i j, ypp2rgb port (Block.pixelAt (unpack c word) i j) =
      .ok (scaleToRgb (cscInv (Block.pixelAt (unpack c word) i j))) := fun word i j =>
    let ⟨a, b, d⟩ := unpack_bounds hc word i j
    ypp2rgb_of_bounds hp a b d
  have ok : ∀ x ∈ cv.map (ypp2rgb port), ∃ a, x = Except.ok a := by
    intro x hx
    obtain ⟨q, hq, rfl⟩ := List.mem_map.mp hx
    obtain ⟨i, hi, j, hj, hk⟩ := mem_raster hcl hq
    obtain ⟨word, -, hcvi⟩ := key i hi j hj
    cases hk.symm.trans hcvi
    exact ⟨_, yp _ _ _⟩
  obtain ⟨px, h₁, h₂⟩ := allOk_eq_ok_of_forall ok
  refine ⟨px, ?_, ?_, ?_⟩
  · unfold decodeImage
    simp only
    rw [if_neg (by omega), if_neg (by rw [evenTrunc_half, evenTrunc_half]; omega)]
    simp [hcv, h₁, bind, Except.bind, pure, Except.pure]
  · have := congrArg List.length h₂
    simp only [List.length_map] at this
    omega
  · intro i hi j hj
    obtain ⟨word, hw, hcvi⟩ := key i hi j hj
    exact ⟨word, hw, allOk_map_getElem? h₂ hcvi (yp _ _ _)⟩

/-- F2RGB delivers nothing but the scaled and truncated channels, and only where they fit the port (R95, R98). -/
theorem f2rgb_eq_ok_iff {port : Option Nat} {p : FloatPixel} {q : RgbOut} :
    f2rgb port p = .ok q ↔ q = scaleToRgb p ∧ rgbFits port q = true := by
  unfold f2rgb
  simp only
  split
  · rename_i h
    constructor
    · intro e; cases e; exact ⟨rfl, h⟩
    · rintro ⟨rfl, -⟩; rfl
  · rename_i h
    constructor
    · intro e; cases e
    · rintro ⟨rfl, e⟩; exact absurd e h

/-- What DECODE can deliver, on every port: a raster of the even-truncated dimensions, each pixel of which is that of its word
and fits the port (R98, R205 to R207). -/
theorem decodeImage_of_ok {c : ChromaTable} {port : Option Nat} {st : List Byte} {w h W H : Nat} {px : List RgbOut}
    (hd : decodeImage c port st w h = .ok (px, W, H)) :
    W = evenTrunc w ∧ H = evenTrunc h ∧ px.length = W * H ∧ st.length = 4 * ((w / 2) * (h / 2)) ∧
      ∀ i < H, ∀ j < W, ∃ word, (wordsOf st)[(i / 2) * (w / 2) + j / 2]? = some word ∧
        px[i * W + j]? = some (scaleToRgb (cscInv (Block.pixelAt (unpack c word) i j))) ∧
        rgbFits port (scaleToRgb (cscInv (Block.pixelAt (unpack c word) i j))) = true := by
  unfold decodeImage at hd
  simp only at hd
  split at hd
  · cases hd
  rename_i h₄
  split at hd
  · cases hd
  rename_i hn
  rw [not_not, evenTrunc_half, evenTrunc_half] at hn
  have hl : st.length = 4 * ((w / 2) * (h / 2)) := by omega
  have hwl : (wordsOf st).length = (w / 2) * (h / 2) := by rw [length_wordsOf, hl]; omega
  obtain ⟨cv, hcv, hcl, hat⟩ := comp_spec (bs := (wordsOf st).map (unpack c)) (w := evenTrunc w)
    (h := evenTrunc h) ⟨evenTrunc_even _, evenTrunc_even _⟩ (by simp [hwl, evenTrunc_half])
  rw [evenTrunc_half] at hat
  have ew : evenTrunc w = w - w % 2 := rfl
  have eh : evenTrunc h = h - h % 2 := rfl
  cases ha : allOk (cv.map (ypp2rgb port)) with
  | error e => simp [hcv, bind, Except.bind, ha] at hd
  | ok out =>
    simp only [hcv, bind, Except.bind, ha, pure, Except.pure, Except.ok.injEq, Prod.mk.injEq] at hd
    obtain ⟨rfl, rfl, rfl⟩ := hd
    have hm := allOk_eq_ok_iff.mp ha
    have hol : out.length = cv.length := by simpa using (congrArg List.length hm).symm
    refine ⟨rfl, rfl, by rw [hol, hcl], hl, fun i hi j hj => ?_⟩
    have hk : (i / 2) * (w / 2) + j / 2 < (wordsOf st).length := by rw [hwl]; exact index_lt (by omega) (by omega)
    have hcvi := hat i hi j hj
    rw [List.getElem?_map, List.getElem?_eq_getElem hk] at hcvi
    have hmi := congrArg (·[i * evenTrunc w + j]?) hm
    simp only [List.getElem?_map, hcvi, Option.map_some] at hmi
    obtain ⟨q, hq, hy⟩ := Option.map_eq_some_iff.mp hmi.symm
    obtain ⟨rfl, hf⟩ := f2rgb_eq_ok_iff.mp hy.symm
    exact ⟨_, List.getElem?_eq_getElem hk, hq, hf⟩

end Sys2Proof.Machine
end

