-- ==== Sys2Proof/Tests/Slice0.lean ====
section
/-! SUPPORT. The model's own tests: the well-formedness smoke tests, command words written out from 30_encoding.md rules R66 and
R70, one-step tests whose expected results are the vectors of 95_test_vectors.md (their ids stand beside them; a vector marked
REFPAL there holds for the reference palette, which the test state selects), and for every statement with hypotheses a witness
that meets them together. -/

namespace Sys2Proof.Tests

open Sys2Proof.Machine Sys2Proof.Claims

-- One theorem after another: the many small kernel evaluations below would each hold a thread of their own.
set_option Elab.async false

/-- A CORE with a transaction in progress, the reference palette and a port as given. -/
def busyOn (port : Option Nat) (cmd : BitVec 32) (p : Payload) : State where
  params    := { chroma := .refpal, rgboW := port, dimW := none }
  current   := some ⟨cmd, p⟩
  waiting   := []
  responses := []

/-- The same on the unbounded port. -/
def busy (cmd : BitVec 32) (p : Payload) : State := busyOn none cmd p

/-- The response one step gives. -/
def replyOf (s : State) : Option Response :=
  match step s with
  | .next t => t.responses.getLast?
  | _ => none

/-- The response to a request on the unbounded port. -/
def reply (cmd : BitVec 32) (p : Payload) : Option Response := replyOf (busy cmd p)

def ok (p : Payload) : Option Response := some ⟨0, some p⟩
def err (code : BitVec 8) : Option Response := some ⟨code, none⟩

/-! ### Well-formedness: a term each check refuses -/

theorem test_wellFormed_accepts : (Instr.getu 255 255).wellFormed = true ∧ Instr.encode.wellFormed = true := by decide
theorem test_getu_wide_width_refused : (Instr.getu 256 0).wellFormed = false := by decide
theorem test_getu_wide_offset_refused : (Instr.getu 0 256).wellFormed = false := by decide
theorem test_gets_wide_width_refused : (Instr.gets 256 0).wellFormed = false := by decide
theorem test_gets_wide_offset_refused : (Instr.gets 0 256).wellFormed = false := by decide
theorem test_setu_wide_width_refused : (Instr.setu 256 0).wellFormed = false := by decide
theorem test_setu_wide_offset_refused : (Instr.setu 0 256).wellFormed = false := by decide
theorem test_sets_wide_width_refused : (Instr.sets 256 0).wellFormed = false := by decide
theorem test_sets_wide_offset_refused : (Instr.sets 0 256).wellFormed = false := by decide

/-! ### Decoding: words written bit by bit from the layout of R66 and the opcodes of R70 -/

theorem test_decode_color :
    decode 0b00010000000000000000000000000000#32 = .ok .rgb2f ∧
    decode 0b00010001000000000000000000000000#32 = .ok .cscfwd ∧
    decode 0b00010010000000000000000000000000#32 = .ok .cscinv ∧
    decode 0b00010011000000000000000000000000#32 = .ok .f2rgb := by decide

theorem test_decode_composer :
    decode 0b00100000000000000000000000000000#32 = .ok .even ∧
    decode 0b00100001000000000000000000000000#32 = .ok .crop ∧
    decode 0b00100010000000000000000000000000#32 = .ok .decomp ∧
    decode 0b00100011000000000000000000000000#32 = .ok .comp := by decide

theorem test_decode_transform :
    decode 0b00110000000000000000000000000000#32 = .ok .btfwd ∧
    decode 0b00110001000000000000000000000000#32 = .ok .btinv := by decide

theorem test_decode_quantizer :
    decode 0b01000000000000000000000000000000#32 = .ok .qa ∧
    decode 0b01000001000000000000000000000000#32 = .ok .dqa ∧
    decode 0b01000010000000000000000000000000#32 = .ok .qd ∧
    decode 0b01000011000000000000000000000000#32 = .ok .dqd ∧
    decode 0b01000100000000000000000000000000#32 = .ok .qch ∧
    decode 0b01000101000000000000000000000000#32 = .ok .dqch := by decide

/-- Widths and offsets of vectors BF-1, BF-3, BF-25, BF-7 and BF-10: op, zero byte, wd, of. -/
theorem test_decode_bitfield :
    decode 0b01010000000000000000100100010111#32 = .ok (.getu 9 23) ∧
    decode 0b01010001000000000000010100010010#32 = .ok (.gets 5 18) ∧
    decode 0b01010010000000000000100100111000#32 = .ok (.setu 9 56) ∧
    decode 0b01010011000000000000000100111111#32 = .ok (.sets 1 63) ∧
    decode 0b01010000000000001100100001100100#32 = .ok (.getu 200 100) := by decide

theorem test_decode_packer :
    decode 0b01100000000000000000000000000000#32 = .ok .pack ∧
    decode 0b01100001000000000000000000000000#32 = .ok .unpack ∧
    decode 0b01100010000000000000000000000000#32 = .ok .w2b ∧
    decode 0b01100011000000000000000000000000#32 = .ok .b2w := by decide

theorem test_decode_pipeline :
    decode 0b01110000000000000000000000000000#32 = .ok .encode ∧
    decode 0b01110001000000000000000000000000#32 = .ok .decode := by decide

/-- PL-11: the five illegal words, each rejected by name. -/
theorem test_decode_illegal :
    decode 0x00000000#32 = .error (.unknownOpcode 0x00) ∧ decode 0x14000000#32 = .error (.unknownOpcode 0x14) ∧
    decode 0x70000001#32 = .error (.reservedBits 0x70000001) ∧
    decode 0x50010917#32 = .error (.reservedBits 0x50010917) ∧
    decode 0xFFFFFFFF#32 = .error (.unknownOpcode 0xFF) := by decide

theorem test_table_word :
    decodeTableWord 32 0x53000512 = some (.sets 5 18) ∧ decodeTableWord 32 0x14000000 = none := by decide

/-- PL-11, R227: E_ILLEGAL whatever `ARG` holds. -/
theorem test_illegal_word : reply 0x70000001#32 (.dims 3 5) = err 6 := by decide

/-! ### One step per instruction: vectors of 95_test_vectors.md -/

/-- CSC-2. -/
theorem test_rgb2f : reply 0x10000000#32 (.rgbIn ⟨12, 200, 77⟩) = ok (.float ⟨4 / 85, 40 / 51, 77 / 255⟩) := by
  decide +kernel

/-- CSC-4. -/
theorem test_cscfwd : reply 0x11000000#32 (.float ⟨1, 0, 0⟩) = ok (.chroma ⟨299 / 1000, -5273 / 31250, 1 / 2⟩) := by
  decide +kernel

/-- CSC-10. -/
theorem test_cscinv : reply 0x12000000#32 (.chroma ⟨153 / 511, -3 / 20, 7 / 20⟩) =
    ok (.float ⟨4037477 / 5110000, 64568501 / 638750000, 85881 / 2555000⟩) := by decide +kernel

/-- CSC-16. -/
theorem test_f2rgb_truncates : reply 0x13000000#32 (.float ⟨1 / 2, 2, -1⟩) = ok (.rgbOut ⟨127, 510, -255⟩) := by
  decide +kernel

/-- R98 on an 11-bit port: 255·5 = 1275 does not fit. -/
theorem test_f2rgb_port : replyOf (busyOn (some 11) 0x13000000#32 (.float ⟨5, 0, 0⟩)) = err 4 := by decide +kernel

/-- BC-1. -/
theorem test_even : reply 0x20000000#32 (.dims 3 5) = ok (.dims 2 4) := by decide

/-- BC-2, on pixels that show their index. -/
theorem test_crop :
    reply 0x21000000#32 (.raster (.rgbIn [⟨0, 0, 0⟩, ⟨1, 0, 0⟩, ⟨2, 0, 0⟩, ⟨3, 0, 0⟩, ⟨4, 0, 0⟩, ⟨5, 0, 0⟩]) 3 2) =
      ok (.raster (.rgbIn [⟨0, 0, 0⟩, ⟨1, 0, 0⟩, ⟨3, 0, 0⟩, ⟨4, 0, 0⟩]) 2 2) := by decide +kernel

/-- BC-9. -/
theorem test_crop_size : reply 0x21000000#32 (.raster (.rgbIn [⟨0, 0, 0⟩]) 3 2) = err 5 := by decide +kernel

/-- BC-5, with luma the index of the pixel. -/
theorem test_decomp :
    reply 0x22000000#32 (.raster (.chroma [⟨0, 0, 0⟩, ⟨1, 0, 0⟩, ⟨2, 0, 0⟩, ⟨3, 0, 0⟩, ⟨4, 0, 0⟩, ⟨5, 0, 0⟩, ⟨6, 0, 0⟩,
        ⟨7, 0, 0⟩]) 4 2) =
      ok (.blocks [⟨⟨0, 0, 0⟩, ⟨1, 0, 0⟩, ⟨4, 0, 0⟩, ⟨5, 0, 0⟩⟩, ⟨⟨2, 0, 0⟩, ⟨3, 0, 0⟩, ⟨6, 0, 0⟩, ⟨7, 0, 0⟩⟩]) := by
  decide +kernel

/-- BC-8: the contract comes before the length. -/
theorem test_decomp_odd : reply 0x22000000#32 (.raster (.chroma []) 3 2) = err 4 := by decide +kernel

/-- BC-7. -/
theorem test_comp :
    reply 0x23000000#32 (.grid [⟨⟨0, 0, 0⟩, ⟨1, 0, 0⟩, ⟨4, 0, 0⟩, ⟨5, 0, 0⟩⟩, ⟨⟨2, 0, 0⟩, ⟨3, 0, 0⟩, ⟨6, 0, 0⟩, ⟨7, 0, 0⟩⟩]
        4 2) =
      ok (.pixels [⟨0, 0, 0⟩, ⟨1, 0, 0⟩, ⟨2, 0, 0⟩, ⟨3, 0, 0⟩, ⟨4, 0, 0⟩, ⟨5, 0, 0⟩, ⟨6, 0, 0⟩, ⟨7, 0, 0⟩]) := by
  decide +kernel

/-- BC-9. -/
theorem test_comp_size : reply 0x23000000#32 (.grid [⟨⟨0, 0, 0⟩, ⟨0, 0, 0⟩, ⟨0, 0, 0⟩, ⟨0, 0, 0⟩⟩] 4 2) = err 5 := by
  decide +kernel

/-- BT-3: the sign of `b`. -/
theorem test_btfwd_sign : reply 0x30000000#32 (.quad ⟨0, 0, 1, 1⟩) = ok (.coeffs ⟨1 / 2, 1 / 2, 0, 0⟩) := by
  decide +kernel

/-- BT-9. -/
theorem test_btinv : reply 0x31000000#32 (.coeffs ⟨0, -3 / 10, -3 / 10, 3 / 10⟩) =
    ok (.quad ⟨9 / 10, -3 / 10, -3 / 10, -3 / 10⟩) := by decide +kernel

/-- Q-2: the tie rule. -/
theorem test_qa_tie : reply 0x40000000#32 (.real (1 / 1022)) = ok (.int 1) := by decide +kernel

/-- Q-4: no clamp, ties and signs. -/
theorem test_qa_negative : reply 0x40000000#32 (.real (-1 / 2)) = ok (.int (-256)) := by decide +kernel

/-- Q-5. -/
theorem test_dqa : reply 0x41000000#32 (.u9 153) = ok (.real (153 / 511)) := by decide +kernel

/-- Q-8: clamped first. -/
theorem test_qd_saturates : reply 0x42000000#32 (.real 1000) = ok (.s5 15) := by decide +kernel

/-- Q-9: a negative tie; −15 is the pattern 10001. -/
theorem test_qd_tie : reply 0x42000000#32 (.real (-29 / 100)) = ok (.s5 0b10001) := by decide +kernel

/-- Q-12: −16 is the pattern 10000. -/
theorem test_dqd_lowest : reply 0x43000000#32 (.s5 0b10000) = ok (.real (-3 / 10)) := by decide +kernel

/-- Q-11: −5 is the pattern 11011. -/
theorem test_dqd : reply 0x43000000#32 (.s5 0b11011) = ok (.real (-1 / 10)) := by decide +kernel

/-- Q-18 REFPAL. -/
theorem test_qch : reply 0x44000000#32 (.quad ⟨0, 0, 1 / 2, 1 / 2⟩) = ok (.idx 14) := by decide +kernel

/-- Q-15 REFPAL: a tie goes to the lower index. -/
theorem test_qch_tie : reply 0x44000000#32 (.quad ⟨-275 / 1000, -275 / 1000, -275 / 1000, -275 / 1000⟩) = ok (.idx 0) := by
  decide +kernel

/-- Q-14 REFPAL. -/
theorem test_dqch : reply 0x45000000#32 (.idx 4) = ok (.real (-77 / 1000)) := by decide +kernel

/-- BF-1. -/
theorem test_getu : reply 0x50000917#32 (.u64 0x4C80002F) = ok (.u64 153) := by decide +kernel

/-- BF-10. -/
theorem test_getu_contract : reply 0x5000C864#32 (.u64 0) = err 4 := by decide +kernel

/-- BF-3: −5. -/
theorem test_gets : reply 0x51000512#32 (.u64 0x81EFD924) = ok (.s64 0xFFFFFFFFFFFFFFFB) := by decide +kernel

/-- BF-7: the top bit alone is −1. -/
theorem test_gets_top : reply 0x5100013F#32 (.u64 0x8000000000000000) = ok (.s64 0xFFFFFFFFFFFFFFFF) := by
  decide +kernel

/-- BF-22: a field over bit 32. -/
theorem test_setu : reply 0x5200081C#32 (.accU 0xFFFFFFFF 0xAB) = ok (.u64 0xABFFFFFFF) := by decide +kernel

/-- BF-26: the contract before the fit. -/
theorem test_setu_contract : reply 0x52000938#32 (.accU 0 600) = err 4 := by decide +kernel

/-- BF-13: −5. -/
theorem test_sets : reply 0x53000512#32 (.accS 0 0xFFFFFFFFFFFFFFFB) = ok (.u64 0x6C0000) := by decide +kernel

/-- BF-14: 16. -/
theorem test_sets_overflow : reply 0x53000512#32 (.accS 0 16) = err 1 := by decide +kernel

/-- PK-8 REFPAL: rows `K, K` and `Bl, Bl`. -/
theorem test_pack :
    reply 0x60000000#32 (.block ⟨⟨0, 0, 0⟩, ⟨0, 0, 0⟩, ⟨57 / 500, 1 / 2, -81312 / 1000000⟩,
      ⟨57 / 500, 1 / 2, -81312 / 1000000⟩⟩) = ok (.codeword 0x0E8C00E6) := by decide +kernel

/-- PK-12: `A` = 512. -/
theorem test_pack_overflow :
    reply 0x60000000#32 (.block ⟨⟨1001 / 1000, 0, 0⟩, ⟨1001 / 1000, 0, 0⟩, ⟨1001 / 1000, 0, 0⟩, ⟨1001 / 1000, 0, 0⟩⟩) =
      err 1 := by decide +kernel

/-- PK-16 REFPAL: a detail field of −16. -/
theorem test_unpack :
    reply 0x61000000#32 (.codeword 0x00400000) =
      ok (.block ⟨⟨3 / 10, -7 / 20, -7 / 20⟩, ⟨3 / 10, -7 / 20, -7 / 20⟩, ⟨-3 / 10, -7 / 20, -7 / 20⟩,
        ⟨-3 / 10, -7 / 20, -7 / 20⟩⟩) := by decide +kernel

/-- PK-17. -/
theorem test_w2b : reply 0x62000000#32 (.codeword 0x81EFD924) = ok (.bytes 0x81 0xEF 0xD9 0x24) := by decide +kernel

/-- PK-18. -/
theorem test_b2w : reply 0x63000000#32 (.bytes 0x2F 0x00 0x80 0x4C) = ok (.codeword 0x2F00804C) := by decide +kernel

/-- PL-3 REFPAL: block order and byte order. -/
theorem test_encode :
    reply 0x70000000#32 (.raster (.rgbIn [⟨255, 255, 255⟩, ⟨255, 255, 255⟩, ⟨0, 0, 0⟩, ⟨0, 0, 0⟩,
        ⟨255, 255, 255⟩, ⟨255, 255, 255⟩, ⟨0, 0, 255⟩, ⟨0, 0, 255⟩]) 4 2) =
      ok (.stream [0xFF, 0x80, 0x00, 0x77, 0x0E, 0x8C, 0x00, 0xE6] 4 2) := by decide +kernel

/-- PL-6. -/
theorem test_encode_size :
    reply 0x70000000#32 (.raster (.rgbIn [⟨1, 2, 3⟩, ⟨1, 2, 3⟩, ⟨1, 2, 3⟩]) 2 2) = err 5 := by decide +kernel

/-- PL-10 REFPAL: odd declared dimensions, channels out of 0 to 255. -/
theorem test_decode :
    reply 0x71000000#32 (.stream [0, 0, 0, 0] 3 3) =
      ok (.raster (.rgbOut [⟨-125, 94, -158⟩, ⟨-125, 94, -158⟩, ⟨-125, 94, -158⟩, ⟨-125, 94, -158⟩]) 2 2) := by
  decide +kernel

/-- PL-7, PL-8. -/
theorem test_decode_malformed :
    reply 0x71000000#32 (.stream [0, 0, 0] 0 0) = err 2 ∧
    reply 0x71000000#32 (.stream [0, 0, 0, 0, 0, 0, 0, 0] 2 2) = err 2 := by decide +kernel

/-- A payload of another type than the operation's is no request of this hardware: the model refuses it by name. -/
theorem test_payload_type :
    (match step (busy 0x40000000#32 (.dims 1 1)) with
      | .refused .payloadType => true
      | _ => false) = true := by decide

/-- From reset with nothing presented the CORE stays idle. -/
theorem test_idle : (match step State.reset with | .next t => decide (t = State.reset) | _ => false) = true := by decide

/-! ### Witnesses: for each statement with hypotheses, a state and operands that meet all of them together, and for a statement
of several clauses one for each, at a boundary of its range -/

/-- Whether an outcome is the next state `t`. -/
def isNext (o : Host.Outcome State Fault Refusal) (t : State) : Bool :=
  match o with
  | .next s => decide (s = t)
  | _ => false

theorem eq_next_of_isNext {o : Host.Outcome State Fault Refusal} {t : State} (h : isNext o t = true) : o = .next t := by
  cases o with
  | next s => exact congrArg _ (of_decide_eq_true h)
  | fault r => cases h
  | refused r => cases h

theorem running_busyOn (port : Option Nat) (cmd : BitVec 32) (p : Payload) : running (busyOn port cmd p) p :=
  ⟨⟨cmd, rfl⟩, by cases p <;> rfl⟩

theorem running_busy (cmd : BitVec 32) (p : Payload) : running (busy cmd p) p := running_busyOn none cmd p

theorem zero_illegal : ∀ i, decode 0#32 ≠ .ok i := by
  intro i h
  rw [show decode 0#32 = .error (.unknownOpcode 0#8) by decide] at h
  cases h

/-- An idle CORE with waiting requests. -/
def queued (rs : List Request) : State where
  params    := { chroma := .bound, rgboW := some 11, dimW := some 3 }
  current   := none
  waiting   := rs
  responses := []

/-- EVEN (3, 5) and an illegal word. -/
def evenReq : Request := ⟨0x20000000, .dims 3 5⟩
def illegalReq : Request := ⟨0xFFFFFFFF, .dims 3 5⟩

theorem witness_EncodeThenDecode : (Instr.sets 255 255).wellFormed = true ∧ (Instr.sets 0 0).wellFormed = true := by decide

theorem witness_DecodeThenEncode : decode 0x5300FFFF#32 = .ok (.sets 255 255) := by decide

theorem witness_LegalCommandWords :
    ((0x71000000#32).extractLsb' 24 8 ∈ opcodesN ∧ (0x71000000#32).extractLsb' 0 24 = 0#24) ∧
    ((0x5300FFFF#32).extractLsb' 24 8 ∈ opcodesF ∧ (0x5300FFFF#32).extractLsb' 16 8 = 0#8) := by decide

theorem witness_StepRunsDecodedInstruction :
    ((busy 0x20000000#32 (.dims 3 5)).current = some evenReq ∧ decode evenReq.cmd = .ok .even) ∧
    ((queued [evenReq, illegalReq]).current = none ∧ (queued [evenReq, illegalReq]).waiting = evenReq :: [illegalReq] ∧
      decode evenReq.cmd = .ok .even) := by decide +kernel

theorem witness_IllegalCommandFails :
    (∀ i, decode 0#32 ≠ .ok i) ∧ (busy 0#32 (.dims 3 5)).current = some ⟨0#32, .dims 3 5⟩ ∧
    (queued [⟨0#32, .dims 3 5⟩]).current = none ∧ (queued [⟨0#32, .dims 3 5⟩]).waiting = ⟨0#32, .dims 3 5⟩ :: [] :=
  ⟨zero_illegal, rfl, rfl, rfl⟩

theorem witness_PlacedWordRunsNext : (Instr.getu 255 255).wellFormed = true ∧ Instr.decode.wellFormed = true := by decide

theorem witness_ResetIsIdle : State.reset.current = none ∧ State.reset.waiting = [] := by decide

theorem witness_StepKeepsInvariant :
    (queued [evenReq, illegalReq]).inv = true ∧ ∃ t, step (queued [evenReq, illegalReq]) = .next t := ⟨by decide, _, rfl⟩

theorem witness_InvariantStatesAreSafe : (queued [evenReq, illegalReq]).inv = true := by decide

theorem witness_ResponsesAreAFunctionOfRequests :
    ∀ r ∈ [evenReq, illegalReq, evenReq], r.wellTyped ⟨.bound, some 11, some 3⟩ = true := by decide

/-- A CORE whose dimensions are 3 bits wide, with EVEN (w, 0) in progress. -/
def narrow (w : Nat) : State where
  params    := { chroma := .refpal, rgboW := none, dimW := some 3 }
  current   := some ⟨0x20000000, .dims w 0⟩
  waiting   := []
  responses := []

/-- R7 on a `DIM_W` of 3 bits: 7 is the largest dimension, and runs; 8 is none, and is refused. -/
theorem test_dim_port :
    replyOf (narrow 7) = ok (.dims 6 0) ∧
    (match step (narrow 8) with
      | .refused .payloadType => true
      | _ => false) = true := by decide

theorem witness_RunsExactlyOnItsOperandType :
    (∃ t, exec .even (narrow 7) = .next t) ∧
    (∃ r, (narrow 7).current = some r ∧ accepts (narrow 7).params .even r.arg = true) ∧
    accepts (narrow 7).params .even (.dims 8 0) = false :=
  ⟨⟨_, rfl⟩, ⟨_, rfl, by decide⟩, by decide⟩

theorem witness_OperationFrame : ∃ t, exec .f2rgb (busyOn (some 11) 0x13000000#32 (.float ⟨5, 0, 0⟩)) = .next t := ⟨_, rfl⟩

theorem witness_ResultTypesAndErrorCodes :
    (busyOn (some 11) 0x21000000#32 (.raster (.float []) 1 1)).params.admissible = true ∧
    (busyOn (some 11) 0x21000000#32 (.raster (.float []) 1 1)).current = some ⟨0x21000000, .raster (.float []) 1 1⟩ ∧
    ∃ t, exec .crop (busyOn (some 11) 0x21000000#32 (.raster (.float []) 1 1)) = .next t := ⟨by decide, rfl, _, rfl⟩

theorem witness_TransactionsDoNotInteract :
    let s₁ := busy 0x20000000#32 (.dims 3 5)
    let s₂ := (busy 0x20000000#32 (.dims 3 5)).present illegalReq
    s₁.params = s₂.params ∧ s₁.current = s₂.current ∧ (∃ t, exec .even s₁ = .next t) ∧ ∃ t, exec .even s₂ = .next t :=
  ⟨rfl, rfl, ⟨_, rfl⟩, _, rfl⟩

theorem witness_PresentedRequestWaits :
    ((busy 0x20000000#32 (.dims 3 5)).current.isSome = true ∧ ∃ t, step (busy 0x20000000#32 (.dims 3 5)) = .next t) ∧
    ((queued [evenReq]).waiting ≠ [] ∧ ∃ t, step (queued [evenReq]) = .next t) :=
  ⟨⟨rfl, _, rfl⟩, by decide, _, rfl⟩

theorem witness_OutputChannelsFitThePort :
    let s₁ := busyOn (some 11) 0x13000000#32 (.float ⟨1, 0, 0⟩)
    let s₂ := busyOn (some 11) 0x71000000#32 (.stream [0, 0, 0, 0] 2 2)
    let px : List RgbOut := [⟨-125, 94, -158⟩, ⟨-125, 94, -158⟩, ⟨-125, 94, -158⟩, ⟨-125, 94, -158⟩]
    (s₁.params.rgboW = some 11 ∧ running s₁ (.float ⟨1, 0, 0⟩) ∧
      exec .f2rgb s₁ = .next (answered s₁ (.rgbOut ⟨255, 0, 0⟩)) ∧
      (answered s₁ (.rgbOut ⟨255, 0, 0⟩)).responses = s₁.responses ++ [⟨0, some (.rgbOut ⟨255, 0, 0⟩)⟩]) ∧
    (s₂.params.rgboW = some 11 ∧ running s₂ (.stream [0, 0, 0, 0] 2 2) ∧
      exec .decode s₂ = .next (answered s₂ (.raster (.rgbOut px) 2 2)) ∧
      (answered s₂ (.raster (.rgbOut px) 2 2)).responses = s₂.responses ++ [⟨0, some (.raster (.rgbOut px) 2 2)⟩]) :=
  ⟨⟨rfl, running_busyOn _ _ _, eq_next_of_isNext (by decide +kernel), rfl⟩, rfl, running_busyOn _ _ _,
    eq_next_of_isNext (by decide +kernel), rfl⟩

theorem witness_RoundTruncClamp :
    nearestAway (1 / 2) 1 ∧ nearestAway (-1 / 2) (-1) ∧ truncated (-1 / 2) 0 ∧ truncated 0 0 ∧ (0 : REAL) ≤ 1 := by
  unfold nearestAway truncated
  decide +kernel

theorem witness_Rgb2fDividesBy255 : running (busy 0x10000000#32 (.rgbIn ⟨255, 0, 128⟩)) (.rgbIn ⟨255, 0, 128⟩) :=
  running_busy _ _

theorem witness_CscfwdIsTheFixedMatrix : running (busy 0x11000000#32 (.float ⟨2, -1, 0⟩)) (.float ⟨2, -1, 0⟩) :=
  running_busy _ _

theorem witness_CscfwdKeepsNominalRange :
    (0 : REAL) ≤ (⟨0, 1, 1⟩ : FloatPixel).r ∧ (⟨0, 1, 1⟩ : FloatPixel).r ≤ 1 ∧ (0 : REAL) ≤ (⟨0, 1, 1⟩ : FloatPixel).g ∧
    (⟨0, 1, 1⟩ : FloatPixel).g ≤ 1 ∧ (0 : REAL) ≤ (⟨0, 1, 1⟩ : FloatPixel).b ∧ (⟨0, 1, 1⟩ : FloatPixel).b ≤ 1 := by
  decide +kernel

theorem witness_CscinvIsTheInverseFormula :
    running (busy 0x12000000#32 (.chroma ⟨0, -1 / 2, 1 / 2⟩)) (.chroma ⟨0, -1 / 2, 1 / 2⟩) ∧
    running (busy 0x12000000#32 (.chroma ⟨1, 0, 0⟩)) (.chroma ⟨1, 0, 0⟩) := ⟨running_busy _ _, running_busy _ _⟩

/-- 1023 is the largest channel of an 11-bit port, 1024 the first that does not fit, −1024 the smallest. -/
theorem witness_F2rgbTruncatesOrFails :
    running (busy 0x13000000#32 (.float ⟨-1 / 510, 1, 2⟩)) (.float ⟨-1 / 510, 1, 2⟩) ∧
    (truncated (255 * (-1 / 510)) 0 ∧ truncated (255 * 1) 255 ∧ truncated (255 * 2) 510) ∧
    (busy 0x13000000#32 (.float ⟨-1 / 510, 1, 2⟩)).params.rgboW = none ∧
    (running (busyOn (some 11) 0x13000000#32 (.float ⟨1023 / 255, -1024 / 255, 0⟩)) (.float ⟨1023 / 255, -1024 / 255, 0⟩) ∧
      truncated (255 * (1023 / 255)) 1023 ∧ truncated (255 * (-1024 / 255)) (-1024) ∧ truncated (255 * 0) 0 ∧
      fitsPort 11 1023 ∧ fitsPort 11 (-1024) ∧ fitsPort 11 0) ∧
    (running (busyOn (some 11) 0x13000000#32 (.float ⟨1024 / 255, 0, 0⟩)) (.float ⟨1024 / 255, 0, 0⟩) ∧
      truncated (255 * (1024 / 255)) 1024 ∧ ¬ (fitsPort 11 1024 ∧ fitsPort 11 0 ∧ fitsPort 11 0)) := by
  refine ⟨running_busy _ _, ?_, rfl, ⟨running_busyOn _ _ _, ?_⟩, running_busyOn _ _ _, ?_⟩ <;>
    (unfold truncated; first | decide +kernel | (unfold fitsPort; decide +kernel))

theorem witness_F2rgbUndoesRgb2f :
    let s₁ := busy 0x10000000#32 (.rgbIn ⟨255, 0, 1⟩)
    let s₂ := busyOn (some 11) 0x13000000#32 (.float ⟨1, 0, 1 / 255⟩)
    running s₁ (.rgbIn ⟨255, 0, 1⟩) ∧ s₂.params.admissible = true ∧
      exec .rgb2f s₁ = .next (answered s₁ (.float ⟨1, 0, 1 / 255⟩)) ∧ running s₂ (.float ⟨1, 0, 1 / 255⟩) :=
  ⟨running_busy _ _, by decide, eq_next_of_isNext (by decide +kernel), running_busyOn _ _ _⟩

theorem witness_ColorMapsAreNotInverse :
    let s₁ := busy 0x11000000#32 (.float ⟨0, 1, 0⟩)
    let q : ChromaPixel := ⟨587 / 1000, -331264 / 1000000, -418688 / 1000000⟩
    running s₁ (.float ⟨0, 1, 0⟩) ∧ exec .cscfwd s₁ = .next (answered s₁ (.chroma q)) ∧
      running (busy 0x12000000#32 (.chroma q)) (.chroma q) :=
  ⟨running_busy _ _, eq_next_of_isNext (by decide +kernel), running_busy _ _⟩

theorem witness_EvenClearsTheLowBit : running (busy 0x20000000#32 (.dims 1 0)) (.dims 1 0) := running_busy _ _

/-- For each pixel type a raster of the right length, an odd width and an empty one; and one of a wrong length. -/
theorem witness_CropKeepsTheEvenPart :
    (running (busy 0x21000000#32 (.raster (.rgbIn [⟨1, 2, 3⟩]) 3 2)) (.raster (.rgbIn [⟨1, 2, 3⟩]) 3 2) ∧
      [(⟨1, 2, 3⟩ : RgbIn)].length ≠ 3 * 2) ∧
    (running (busy 0x21000000#32 (.raster (.rgbOut (List.replicate 6 ⟨1, 2, 3⟩)) 3 2))
        (.raster (.rgbOut (List.replicate 6 ⟨1, 2, 3⟩)) 3 2) ∧
      (List.replicate 6 (⟨1, 2, 3⟩ : RgbOut)).length = 3 * 2 ∧ 1 < 2 - 2 % 2 ∧ 1 < 3 - 3 % 2) ∧
    (running (busy 0x21000000#32 (.raster (.float []) 0 7)) (.raster (.float []) 0 7) ∧
      ([] : List FloatPixel).length = 0 * 7) ∧
    (running (busy 0x21000000#32 (.raster (.chroma [⟨1, 0, 0⟩]) 1 1)) (.raster (.chroma [⟨1, 0, 0⟩]) 1 1) ∧
      [(⟨1, 0, 0⟩ : ChromaPixel)].length = 1 * 1) :=
  ⟨⟨running_busy _ _, by decide⟩, ⟨running_busy _ _, by decide⟩, ⟨running_busy _ _, by decide⟩, running_busy _ _, by decide⟩

theorem witness_DecompBuildsBlocks :
    (running (busy 0x22000000#32 (.raster (.chroma []) 3 2)) (.raster (.chroma []) 3 2) ∧ (3 % 2 = 1 ∨ 2 % 2 = 1)) ∧
    (running (busy 0x22000000#32 (.raster (.chroma []) 2 2)) (.raster (.chroma []) 2 2) ∧ 2 % 2 = 0 ∧
      ([] : List ChromaPixel).length ≠ 2 * 2) ∧
    (running (busy 0x22000000#32 (.raster (.chroma (List.replicate 8 ⟨0, 0, 0⟩)) 4 2))
        (.raster (.chroma (List.replicate 8 ⟨0, 0, 0⟩)) 4 2) ∧
      4 % 2 = 0 ∧ 2 % 2 = 0 ∧ (List.replicate 8 (⟨0, 0, 0⟩ : ChromaPixel)).length = 4 * 2 ∧ 0 < 2 / 2 ∧ 1 < 4 / 2) :=
  ⟨⟨running_busy _ _, by decide⟩, ⟨running_busy _ _, by decide⟩, running_busy _ _, by decide⟩

/-- A Block whose four pixels are black. -/
def blackBlock : Block := ⟨⟨0, 0, 0⟩, ⟨0, 0, 0⟩, ⟨0, 0, 0⟩, ⟨0, 0, 0⟩⟩

theorem witness_CompPlacesPixels :
    (running (busy 0x23000000#32 (.grid [] 2 3)) (.grid [] 2 3) ∧ (2 % 2 = 1 ∨ 3 % 2 = 1)) ∧
    (running (busy 0x23000000#32 (.grid [blackBlock] 4 2)) (.grid [blackBlock] 4 2) ∧ 4 % 2 = 0 ∧ 2 % 2 = 0 ∧
      [blackBlock].length ≠ (4 / 2) * (2 / 2)) ∧
    (running (busy 0x23000000#32 (.grid [blackBlock, blackBlock] 2 4)) (.grid [blackBlock, blackBlock] 2 4) ∧ 2 % 2 = 0 ∧
      4 % 2 = 0 ∧ [blackBlock, blackBlock].length = (2 / 2) * (4 / 2) ∧ 1 < 4 / 2 ∧ 0 < 2 / 2) :=
  ⟨⟨running_busy _ _, by decide⟩, ⟨running_busy _ _, by decide⟩, running_busy _ _, by decide⟩

theorem witness_DecompCompRoundTrip :
    let px : List ChromaPixel := [⟨0, 0, 0⟩, ⟨1, 0, 0⟩, ⟨2, 0, 0⟩, ⟨3, 0, 0⟩]
    let bs : List Block := [⟨⟨0, 0, 0⟩, ⟨1, 0, 0⟩, ⟨2, 0, 0⟩, ⟨3, 0, 0⟩⟩]
    let s₁ := busy 0x22000000#32 (.raster (.chroma px) 2 2)
    let s₂ := busy 0x23000000#32 (.grid bs 2 2)
    2 % 2 = 0 ∧ px.length = 2 * 2 ∧ bs.length = (2 / 2) * (2 / 2) ∧ running s₁ (.raster (.chroma px) 2 2) ∧
      running s₂ (.grid bs 2 2) ∧ exec .decomp s₁ = .next (answered s₁ (.blocks bs)) ∧
      exec .comp s₂ = .next (answered s₂ (.pixels px)) :=
  ⟨rfl, rfl, rfl, running_busy _ _, running_busy _ _, eq_next_of_isNext (by decide +kernel),
    eq_next_of_isNext (by decide +kernel)⟩

theorem witness_BtfwdCoefficients : running (busy 0x30000000#32 (.quad ⟨1, 0, 0, 2⟩)) (.quad ⟨1, 0, 0, 2⟩) := running_busy _ _

/-- The largest luma, BT-8. -/
theorem witness_BtinvLumas :
    running (busy 0x31000000#32 (.coeffs ⟨1, 3 / 10, 3 / 10, -3 / 10⟩)) (.coeffs ⟨1, 3 / 10, 3 / 10, -3 / 10⟩) ∧
    (0 : REAL) ≤ 1 ∧ |(3 / 10 : REAL)| ≤ 3 / 10 ∧ |(-3 / 10 : REAL)| ≤ 3 / 10 :=
  ⟨running_busy _ _, by decide +kernel⟩

theorem witness_BlockTransformInverse :
    let s₁ := busy 0x30000000#32 (.quad ⟨1, 0, 0, 0⟩)
    let s₂ := busy 0x31000000#32 (.coeffs ⟨1 / 4, -1 / 4, -1 / 4, 1 / 4⟩)
    running s₁ (.quad ⟨1, 0, 0, 0⟩) ∧ running s₂ (.coeffs ⟨1 / 4, -1 / 4, -1 / 4, 1 / 4⟩) ∧
      exec .btfwd s₁ = .next (answered s₁ (.coeffs ⟨1 / 4, -1 / 4, -1 / 4, 1 / 4⟩)) ∧
      exec .btinv s₂ = .next (answered s₂ (.quad ⟨1, 0, 0, 0⟩)) :=
  ⟨running_busy _ _, running_busy _ _, eq_next_of_isNext (by decide +kernel), eq_next_of_isNext (by decide +kernel)⟩

/-- The two ends of the range of `a`, just outside it. -/
theorem witness_QaRoundsWithoutClamp :
    running (busy 0x40000000#32 (.real (-1 / 1022))) (.real (-1 / 1022)) ∧
    running (busy 0x40000000#32 (.real (1 + 1 / 1022))) (.real (1 + 1 / 1022)) := ⟨running_busy _ _, running_busy _ _⟩

theorem witness_DqaDividesAndClamps : running (busy 0x41000000#32 (.u9 511)) (.u9 511) := running_busy _ _

theorem witness_QdClampsThenRounds : running (busy 0x42000000#32 (.real (-31 / 100))) (.real (-31 / 100)) := running_busy _ _

theorem witness_DqdDividesAndClamps : running (busy 0x43000000#32 (.s5 0b10000)) (.s5 0b10000) := running_busy _ _

theorem witness_QchIndexesTheMean :
    running (busy 0x44000000#32 (.quad ⟨1 / 2, -1 / 2, 0, 1⟩)) (.quad ⟨1 / 2, -1 / 2, 0, 1⟩) ∧
    running (busy 0x44000000#32 (.quad ⟨1 / 2, 1 / 2, 1 / 2, 1 / 2⟩)) (.quad ⟨1 / 2, 1 / 2, 1 / 2, 1 / 2⟩) ∧
    |(1 / 2 : REAL)| ≤ 1 / 2 := ⟨running_busy _ _, running_busy _ _, by decide +kernel⟩

theorem witness_DqchLooksUpTheValue : running (busy 0x45000000#32 (.idx 15)) (.idx 15) := running_busy _ _

theorem witness_ChromaInverseOnPalette :
    ChromaInst.refpal.table.ofIndex 3 = ChromaInst.refpal.table.ofIndex 3 ∧
    ∃ i, (-1 / 10 : REAL) = ChromaInst.refpal.table.ofIndex i := ⟨rfl, 3, by decide +kernel⟩

theorem witness_ChromaMonotonicInRange : (0 : Idx).toNat < (15 : Idx).toNat := by decide

theorem witness_QuantizationLossBounds :
    ((0 : REAL) ≤ 1 ∧ (1 : REAL) ≤ 1) ∧ |(-3 / 10 : REAL)| ≤ 3 / 10 ∧ (3 / 10 : REAL) < |(-301 / 1000 : REAL)| := by
  decide +kernel

/-- The contract at its edge: `wd + of` is 64, and 65. -/
theorem witness_GetuExtractsUnsigned :
    255 < 256 ∧ running (busy 0x50004000#32 (.u64 5)) (.u64 5) ∧ 64 + 0 ≤ 64 ∧ 0 + 64 ≤ 64 ∧ 64 < 1 + 64 :=
  ⟨by decide, running_busy _ _, by decide⟩

theorem witness_GetsExtractsSigned :
    255 < 256 ∧ running (busy 0x5100013F#32 (.u64 0x8000000000000000)) (.u64 0x8000000000000000) ∧ 1 + 63 ≤ 64 ∧
    (1 ≤ 1 ∧ (0x8000000000000000#64).getLsbD (63 + 1 - 1) = true) ∧ 64 < 2 + 63 :=
  ⟨by decide, running_busy _ _, by decide⟩

/-- 511 is the largest field of 9 bits, 512 the first that does not fit. -/
theorem witness_SetuInsertsUnsigned :
    (running (busy 0x52000938#32 (.accU 0 600)) (.accU 0 600) ∧ 64 < 9 + 56) ∧
    (running (busy 0x52000937#32 (.accU 0 512)) (.accU 0 512) ∧ 9 + 55 ≤ 64 ∧ 2 ^ 9 ≤ (512#64).toNat) ∧
    (running (busy 0x52000937#32 (.accU 7 511)) (.accU 7 511) ∧ 9 + 55 ≤ 64 ∧ (511#64).toNat < 2 ^ 9) :=
  ⟨⟨running_busy _ _, by decide⟩, ⟨running_busy _ _, by decide⟩, running_busy _ _, by decide⟩

/-- −16 is the smallest field of 5 bits, −17 the first that does not fit; of 0 bits only 0 fits. -/
theorem witness_SetsInsertsSigned :
    (running (busy 0x5300053C#32 (.accS 0 0)) (.accS 0 0) ∧ 64 < 5 + 60) ∧
    (running (busy 0x5300053B#32 (.accS 0 (-17))) (.accS 0 (-17)) ∧ 5 + 59 ≤ 64 ∧ ¬ fitsField 5 (-17#64).toInt) ∧
    (running (busy 0x5300053B#32 (.accS 7 (-16))) (.accS 7 (-16)) ∧ 5 + 59 ≤ 64 ∧ fitsField 5 (-16#64).toInt) ∧
    fitsField 0 (0#64).toInt ∧ ¬ fitsField 0 (-1#64).toInt := by
  refine ⟨⟨running_busy _ _, by decide⟩, ⟨running_busy _ _, by decide, ?_⟩, ⟨running_busy _ _, by decide, ?_⟩, ?_⟩ <;>
    (unfold fitsField; decide)

theorem witness_GetAfterSet :
    let s₁ := busy 0x52000937#32 (.accU 7 511)
    let s₁' := busy 0x53000512#32 (.accS 0 (-5))
    let s₂ := busy 0x50000937#32 (.u64 0xFF80000000000007)
    let s₂' := busy 0x51000512#32 (.u64 0x6C0000)
    9 + 55 ≤ 64 ∧ 5 + 18 ≤ 64 ∧
      (running s₂ (.u64 0xFF80000000000007) ∧ running s₁ (.accU 7 511) ∧
        exec (.setu 9 55) s₁ = .next (answered s₁ (.u64 0xFF80000000000007))) ∧
      (running s₂' (.u64 0x6C0000) ∧ running s₁' (.accS 0 (-5)) ∧
        exec (.sets 5 18) s₁' = .next (answered s₁' (.u64 0x6C0000))) :=
  ⟨by decide, by decide, ⟨running_busy _ _, running_busy _ _, eq_next_of_isNext (by decide +kernel)⟩,
    running_busy _ _, running_busy _ _, eq_next_of_isNext (by decide +kernel)⟩

/-- Two fields that touch, on either side; and an empty field inside the other. -/
theorem witness_SetLeavesDisjointFields :
    let s₁ := busy 0x52000404#32 (.accU 0xFFF 0)
    let s₁' := busy 0x53000404#32 (.accS 0xFFF 0)
    4 + 0 ≤ 64 ∧ 4 + 8 ≤ 64 ∧ (0 + 4 ≤ 4 ∨ 4 + 4 ≤ 0 ∨ 4 = 0 ∨ 4 = 0) ∧ (8 + 4 ≤ 4 ∨ 4 + 4 ≤ 8 ∨ 4 = 0 ∨ 4 = 0) ∧
      (6 + 0 ≤ 4 ∨ 4 + 4 ≤ 6 ∨ 4 = 0 ∨ 0 = 0) ∧
      running (busy 0x50000400#32 (.u64 0xFFF)) (.u64 0xFFF) ∧ running (busy 0x50000400#32 (.u64 0xF0F)) (.u64 0xF0F) ∧
      (running s₁ (.accU 0xFFF 0) ∧ exec (.setu 4 4) s₁ = .next (answered s₁ (.u64 0xF0F))) ∧
      (running s₁' (.accS 0xFFF 0) ∧ exec (.sets 4 4) s₁' = .next (answered s₁' (.u64 0xF0F))) :=
  ⟨by decide, by decide, by decide, by decide, by decide, running_busy _ _, running_busy _ _,
    ⟨running_busy _ _, eq_next_of_isNext (by decide +kernel)⟩, running_busy _ _, eq_next_of_isNext (by decide +kernel)⟩

/-- A Block whose four pixels are equal. -/
def flat (q : ChromaPixel) : Block := ⟨q, q, q, q⟩

/-- The average at both ends of the range that packs, where it no longer does, and one that does. -/
theorem witness_PackLaysOutTheCodeword :
    (running (busy 0x60000000#32 (.block (flat ⟨-1 / 1022, 0, 0⟩))) (.block (flat ⟨-1 / 1022, 0, 0⟩)) ∧
      (-1 / 1022 : REAL) = (-1 / 1022 + -1 / 1022 + -1 / 1022 + -1 / 1022) / 4 ∧ (-1 / 1022 : REAL) ≤ -1 / 1022) ∧
    (running (busy 0x60000000#32 (.block (flat ⟨1 + 1 / 1022, 0, 0⟩))) (.block (flat ⟨1 + 1 / 1022, 0, 0⟩)) ∧
      (1 + 1 / 1022 : REAL) = (1 + 1 / 1022 + (1 + 1 / 1022) + (1 + 1 / 1022) + (1 + 1 / 1022)) / 4) ∧
    (running (busy 0x60000000#32 (.block (flat ⟨1, -1 / 2, 1 / 2⟩))) (.block (flat ⟨1, -1 / 2, 1 / 2⟩)) ∧
      (1 : REAL) = (1 + 1 + 1 + 1) / 4 ∧ (0 : REAL) = (1 + 1 - 1 - 1) / 4 ∧ (0 : REAL) = (1 - 1 + 1 - 1) / 4 ∧
      (0 : REAL) = (1 - 1 - 1 + 1) / 4 ∧ (-1 / 2 : REAL) = (-1 / 2 + -1 / 2 + -1 / 2 + -1 / 2) / 4 ∧
      (1 / 2 : REAL) = (1 / 2 + 1 / 2 + 1 / 2 + 1 / 2) / 4 ∧ (-1 / 1022 : REAL) < 1 ∧ (1 : REAL) < 1 + 1 / 1022) := by
  refine ⟨⟨running_busy _ _, ?_⟩, ⟨running_busy _ _, ?_⟩, running_busy _ _, ?_⟩ <;> norm_num

theorem witness_UnpackRebuildsTheBlock :
    running (busy 0x61000000#32 (.codeword 0x00400000)) (.codeword 0x00400000) ∧
    (0 : REAL) = limited (((0x00400000#32).extractLsb' 23 9).toNat / 511) 0 1 ∧
    (-3 / 10 : REAL) = limited (((0x00400000#32).extractLsb' 18 5).toInt / 50) (-3 / 10) (3 / 10) ∧
    (0 : REAL) = limited (((0x00400000#32).extractLsb' 13 5).toInt / 50) (-3 / 10) (3 / 10) ∧
    (0 : REAL) = limited (((0x00400000#32).extractLsb' 8 5).toInt / 50) (-3 / 10) (3 / 10) ∧
    (-35 / 100 : REAL) = ChromaInst.refpal.table.ofIndex ((0x00400000#32).extractLsb' 4 4) ∧
    (-35 / 100 : REAL) = ChromaInst.refpal.table.ofIndex ((0x00400000#32).extractLsb' 0 4) :=
  ⟨running_busy _ _, by decide +kernel⟩

theorem witness_W2bIsBigEndian : running (busy 0x62000000#32 (.codeword 0x81EFD924)) (.codeword 0x81EFD924) := running_busy _ _

theorem witness_B2wInvertsW2b :
    running (busy 0x63000000#32 (.bytes 0x81 0xEF 0xD9 0x24)) (.bytes 0x81 0xEF 0xD9 0x24) ∧
    running (busy 0x62000000#32 (.codeword 0x81EFD924)) (.codeword 0x81EFD924) := ⟨running_busy _ _, running_busy _ _⟩

/-- PK-16: a word with a detail field of −16. -/
theorem witness_PackAfterUnpack :
    let s₁ := busy 0x61000000#32 (.codeword 0x00400000)
    let b : Block := ⟨⟨3 / 10, -7 / 20, -7 / 20⟩, ⟨3 / 10, -7 / 20, -7 / 20⟩, ⟨-3 / 10, -7 / 20, -7 / 20⟩,
      ⟨-3 / 10, -7 / 20, -7 / 20⟩⟩
    let s₂ := busy 0x60000000#32 (.block b)
    s₁.params.chroma = s₂.params.chroma ∧ running s₁ (.codeword 0x00400000) ∧
      exec .unpack s₁ = .next (answered s₁ (.block b)) ∧ running s₂ (.block b) ∧
      exec .pack s₂ = .next (answered s₂ (.codeword 0x00440000)) :=
  ⟨rfl, running_busy _ _, eq_next_of_isNext (by decide +kernel), running_busy _ _, eq_next_of_isNext (by decide +kernel)⟩

/-- Luma 1/10, 1/5, 3/10, 2/5 (BT-1), and a detail coefficient at the bound: 1/5, 1/5, 4/5, 4/5. -/
theorem witness_PackedLumaErrorBound :
    let x : Block := ⟨⟨1 / 5, 0, 0⟩, ⟨1 / 5, 0, 0⟩, ⟨4 / 5, 0, 0⟩, ⟨4 / 5, 0, 0⟩⟩
    let t : TransformedBlock := ⟨1 / 2, 3 / 10, 0, 0⟩
    let s₁ := busy 0x60000000#32 (.block x)
    let w : Codeword := 0x803C0077
    running s₁ (.block x) ∧ t = btFwd ⟨x.pix1.y, x.pix2.y, x.pix3.y, x.pix4.y⟩ ∧
      (∀ v ∈ [x.pix1.y, x.pix2.y, x.pix3.y, x.pix4.y], 0 ≤ v ∧ v ≤ 1) ∧
      |t.b| ≤ 3 / 10 ∧ |t.c| ≤ 3 / 10 ∧ |t.d| ≤ 3 / 10 ∧
      exec .pack s₁ = .next (answered s₁ (.codeword w)) ∧ running (busy 0x61000000#32 (.codeword w)) (.codeword w) :=
  ⟨running_busy _ _, by decide +kernel, by decide +kernel, by decide +kernel, by decide +kernel, by decide +kernel,
    eq_next_of_isNext (by decide +kernel), running_busy _ _⟩

/-- A 3×2 image of six equal pixels, its even part one Block; and a raster of a wrong length. -/
theorem witness_EncodeImageStream :
    let px : List RgbIn := List.replicate 6 ⟨255, 0, 0⟩
    (running (busy 0x70000000#32 (.raster (.rgbIn px) 2 2)) (.raster (.rgbIn px) 2 2) ∧ px.length ≠ 2 * 2) ∧
    (running (busy 0x70000000#32 (.raster (.rgbIn px) 3 2)) (.raster (.rgbIn px) 3 2) ∧ px.length = 3 * 2 ∧ 0 < 2 / 2 ∧
      0 < 3 / 2) := ⟨⟨running_busy _ _, by decide⟩, running_busy _ _, by decide⟩

/-- Two 3×2 images that differ in a pixel of the dropped column. -/
theorem witness_DroppedPixelsDoNotMatter :
    let p : List RgbIn := [⟨1, 2, 3⟩, ⟨1, 2, 3⟩, ⟨9, 9, 9⟩, ⟨1, 2, 3⟩, ⟨1, 2, 3⟩, ⟨1, 2, 3⟩]
    let q : List RgbIn := [⟨1, 2, 3⟩, ⟨1, 2, 3⟩, ⟨0, 0, 0⟩, ⟨1, 2, 3⟩, ⟨1, 2, 3⟩, ⟨1, 2, 3⟩]
    let s₁ := busy 0x70000000#32 (.raster (.rgbIn p) 3 2)
    let s₂ := busy 0x70000000#32 (.raster (.rgbIn q) 3 2)
    s₁.params.chroma = s₂.params.chroma ∧ p.length = 3 * 2 ∧ q.length = 3 * 2 ∧ p ≠ q ∧
      (∀ i j, i < 2 - 2 % 2 → j < 3 - 3 % 2 → p[i * 3 + j]? = q[i * 3 + j]?) ∧
      running s₁ (.raster (.rgbIn p) 3 2) ∧ running s₂ (.raster (.rgbIn q) 3 2) := by
  refine ⟨rfl, rfl, rfl, by decide, ?_, running_busy _ _, running_busy _ _⟩
  intro i j hi hj
  have hi' : i = 0 ∨ i = 1 := by omega
  have hj' : j = 0 ∨ j = 1 := by omega
  rcases hi' with rfl | rfl <;> rcases hj' with rfl | rfl <;> rfl

theorem witness_UniformRedScenario :
    let px : List RgbIn := [⟨255, 0, 0⟩, ⟨255, 0, 0⟩, ⟨255, 0, 0⟩, ⟨255, 0, 0⟩]
    let w : Codeword := 0x4C80002F
    running (busy 0x70000000#32 (.raster (.rgbIn px) 2 2)) (.raster (.rgbIn px) 2 2) ∧
      (2 : Idx) = ChromaInst.refpal.table.indexOf (-(168736 / 1000000)) ∧
      (15 : Idx) = ChromaInst.refpal.table.indexOf (1 / 2) ∧
      w = BitVec.ofNat 32 (153 * 2 ^ 23 + (2 : Idx).toNat * 2 ^ 4 + (15 : Idx).toNat) ∧
      running (busy 0x61000000#32 (.codeword w)) (.codeword w) :=
  ⟨running_busy _ _, by decide +kernel, by decide +kernel, by decide, running_busy _ _⟩

theorem witness_DecodeImageRaster :
    (running (busy 0x71000000#32 (.stream [0, 0, 0] 0 0)) (.stream [0, 0, 0] 0 0) ∧ [(0 : Byte), 0, 0].length % 4 ≠ 0) ∧
    (running (busy 0x71000000#32 (.stream [] 2 2)) (.stream [] 2 2) ∧ ([] : List Byte).length % 4 = 0 ∧
      ([] : List Byte).length / 4 ≠ (2 / 2) * (2 / 2)) ∧
    (let st : List Byte := [0x4C, 0x80, 0x00, 0x2F]
     let s := busyOn (some 11) 0x71000000#32 (.stream st 3 2)
     running s (.stream st 3 2) ∧ st.length = 4 * ((3 / 2) * (2 / 2)) ∧ s.params.admissible = true ∧
      1 < 2 - 2 % 2 ∧ 1 < 3 - 3 % 2 ∧ 0 = (1 / 2) * (3 / 2) + 1 / 2 ∧ st[4 * 0]? = some 0x4C ∧
      st[4 * 0 + 1]? = some 0x80 ∧ st[4 * 0 + 2]? = some 0x00 ∧ st[4 * 0 + 3]? = some 0x2F) :=
  ⟨⟨running_busy _ _, by decide⟩, ⟨running_busy _ _, by decide⟩, running_busyOn _ _ _, by decide⟩

theorem witness_DecodeAfterEncode :
    let px : List RgbIn := List.replicate 6 ⟨255, 0, 0⟩
    let s₁ := busy 0x70000000#32 (.raster (.rgbIn px) 3 2)
    let s₂ := busyOn (some 11) 0x71000000#32 (.stream [0x4C, 0x80, 0x00, 0x2F] 2 2)
    px.length = 3 * 2 ∧ running s₁ (.raster (.rgbIn px) 3 2) ∧ s₂.params.admissible = true ∧
      exec .encode s₁ = .next (answered s₁ (.stream [0x4C, 0x80, 0x00, 0x2F] 2 2)) ∧
      running s₂ (.stream [0x4C, 0x80, 0x00, 0x2F] 2 2) :=
  ⟨rfl, running_busy _ _, by decide, eq_next_of_isNext (by decide +kernel), running_busyOn _ _ _⟩

end Sys2Proof.Tests
end

section
/-! The Color Converter's statements O20 and O23 (40_color_converter.md rules R92, R94), over one rule for every operation that
runs on a payload of its type. -/

namespace Sys2Proof.Proofs

open Sys2Proof.Machine Sys2Proof.Claims

/-- The rule for one transaction: an operation that computes `x` from the payload in progress delivers `x` (R20, R33). -/
theorem exec_of_running {s : State} {i : Instr} {p : Payload} {x : Except Error Payload} (h : running s p)
    (hx : computed s.params i p = some x) : exec i s = .next (s.finish x) := by
  obtain ⟨⟨cmd, hcur⟩, hfit⟩ := h
  exact exec_of_outcome hcur ((outcome_of_fits hfit).trans hx)

/-- The same with status OK, as the whole next state. -/
theorem exec_eq_answered {s : State} {i : Instr} {p q : Payload} (h : running s p)
    (hq : computed s.params i p = some (.ok q)) : exec i s = .next (answered s q) :=
  exec_of_running h hq

theorem exec_rgb2f {s : State} {p : RgbIn} (h : running s (.rgbIn p)) :
    exec .rgb2f s = .next (answered s (.float (rgb2f p))) :=
  exec_eq_answered h rfl

theorem exec_cscinv {s : State} {p : ChromaPixel} (h : running s (.chroma p)) :
    exec .cscinv s = .next (answered s (.float (cscInv p))) :=
  exec_eq_answered h rfl

/-- A pixel without chroma is grey (R94). -/
@[simp] theorem cscInv_grey (y : REAL) : cscInv ⟨y, 0, 0⟩ = ⟨y, y, y⟩ := by
  simp [cscInv]

/-- Settles O20: `rgb2f` is the division R92 writes, and a channel over 255 stays in [0,1] by `channel_bounds`. -/
theorem rgb2fDividesBy255 : Obligations.Rgb2fDividesBy255 :=
  ⟨by decide, fun _ _ h => exec_rgb2f h, channel_bounds⟩

/-- Settles O23: `cscInv` is the formula R94 writes, with no error path; the grey case is `cscInv_grey`. -/
theorem cscinvIsTheInverseFormula : Obligations.CscinvIsTheInverseFormula := by
  refine ⟨by decide, fun _ _ h => exec_cscinv h, fun s y h => ?_⟩
  rw [exec_cscinv h, cscInv_grey]

end Sys2Proof.Proofs
end

section
/-! The Block Composer's statements O27 and O31 (41_block_composer.md rules R110, R118), over the one correspondence of a Block
with its four places in the raster (R12, R42, R116). -/

namespace Sys2Proof.Proofs

open Sys2Proof.Machine Sys2Proof.Claims

variable {s : State} {px : List ChromaPixel} {bs : List Block} {w h : Nat}

theorem exec_even (hr : running s (.dims w h)) :
    exec .even s = .next (answered s (.dims (evenTrunc w) (evenTrunc h))) :=
  exec_eq_answered hr rfl

/-- DECOMP delivers what `decomp` computes, its error statuses included. -/
theorem exec_decomp (hr : running s (.raster (.chroma px) w h)) :
    exec .decomp s = .next (s.finish ((decomp px w h).map .blocks)) :=
  exec_of_running hr rfl

/-- COMP delivers what `comp` computes, its error statuses included. -/
theorem exec_comp (hr : running s (.grid bs w h)) :
    exec .comp s = .next (s.finish ((comp bs w h).map .pixels)) :=
  exec_of_running hr rfl

theorem exec_decomp_of_eq_ok (hr : running s (.raster (.chroma px) w h)) (hd : decomp px w h = .ok bs) :
    exec .decomp s = .next (answered s (.blocks bs)) := by
  rw [exec_decomp hr, hd]; rfl

theorem exec_comp_of_eq_ok (hr : running s (.grid bs w h)) (hc : comp bs w h = .ok px) :
    exec .comp s = .next (answered s (.pixels px)) := by
  rw [exec_comp hr, hc]; rfl

/-! Which of the four pixels stands at a place, by the parity of its row and column (R12). -/

theorem pixelAt_even_even (b : Block) (i j : Nat) : Block.pixelAt b (2 * i) (2 * j) = b.pix1 := by
  simp [Block.pixelAt]
theorem pixelAt_even_odd (b : Block) (i j : Nat) : Block.pixelAt b (2 * i) (2 * j + 1) = b.pix2 := by
  simp [Block.pixelAt]
theorem pixelAt_odd_even (b : Block) (i j : Nat) : Block.pixelAt b (2 * i + 1) (2 * j) = b.pix3 := by
  simp [Block.pixelAt]
theorem pixelAt_odd_odd (b : Block) (i j : Nat) : Block.pixelAt b (2 * i + 1) (2 * j + 1) = b.pix4 := by
  simp [Block.pixelAt]

/-- The Block at block row `bi`, block column `bj` of a raster is `b` exactly when each of its four places holds the pixel of
`b` for that place: what DECOMP reads is what COMP writes. -/
theorem blockAt_eq_some_iff_pixelAt {bi bj : Nat} {b : Block} :
    blockAt px w (2 * bi) (2 * bj) = some b ↔
      ∀ i j, i / 2 = bi → j / 2 = bj → px[i * w + j]? = some (Block.pixelAt b i j) := by
  rw [blockAt_eq_some_iff]
  constructor
  · rintro ⟨h₁, h₂, h₃, h₄⟩ i j hi hj
    obtain rfl | rfl : i = 2 * bi ∨ i = 2 * bi + 1 := by omega
    · obtain rfl | rfl : j = 2 * bj ∨ j = 2 * bj + 1 := by omega
      · rw [pixelAt_even_even, h₁]
      · rw [pixelAt_even_odd, h₂]
    · obtain rfl | rfl : j = 2 * bj ∨ j = 2 * bj + 1 := by omega
      · rw [pixelAt_odd_even, h₃]
      · rw [pixelAt_odd_odd, h₄]
  · intro hp
    have even : ∀ n, 2 * n / 2 = n := by omega
    have odd : ∀ n, (2 * n + 1) / 2 = n := by omega
    refine ⟨?_, ?_, ?_, ?_⟩
    · rw [hp _ _ (even bi) (even bj), pixelAt_even_even]
    · rw [hp _ _ (even bi) (odd bj), pixelAt_even_odd]
    · rw [hp _ _ (odd bi) (even bj), pixelAt_odd_even]
    · rw [hp _ _ (odd bi) (odd bj), pixelAt_odd_odd]

/-- COMP of the Blocks of a raster is the raster (R118). -/
theorem comp_decomp (he : w % 2 = 0 ∧ h % 2 = 0) (hl : px.length = w * h) :
    ∃ bs, decomp px w h = .ok bs ∧ comp bs w h = .ok px := by
  obtain ⟨bs, hd, hbl, hbs⟩ := decomp_spec he hl
  obtain ⟨out, hc, hol, hout⟩ := comp_spec he hbl
  have heq : out = px := raster_ext hol hl fun i hi j hj => by
    obtain ⟨b, hb, hat⟩ := hbs (i / 2) (by omega) (j / 2) (by omega)
    rw [hout i hi j hj, hb, Option.map_some, blockAt_eq_some_iff_pixelAt.mp hat i j rfl rfl]
  exact ⟨bs, hd, heq ▸ hc⟩

/-- DECOMP of the raster of a block list is the block list (R118). -/
theorem decomp_comp (he : w % 2 = 0 ∧ h % 2 = 0) (hl : bs.length = (w / 2) * (h / 2)) :
    ∃ px, comp bs w h = .ok px ∧ decomp px w h = .ok bs := by
  obtain ⟨px, hc, hpl, hpx⟩ := comp_spec he hl
  obtain ⟨out, hd, hol, hout⟩ := decomp_spec he hpl
  have heq : out = bs := raster_ext hol hl fun bi hi bj hj => by
    obtain ⟨b, hb⟩ := Option.isSome_iff_exists.mp (isSome_getElem_raster hl hi hj)
    obtain ⟨b', hb', hat'⟩ := hout bi hi bj hj
    have hat : blockAt px w (2 * bi) (2 * bj) = some b :=
      blockAt_eq_some_iff_pixelAt.mpr fun i j hbi hbj => by
        rw [hpx i (by omega) j (by omega), hbi, hbj, hb, Option.map_some]
    rw [hb', hb, ← hat', hat]
  exact ⟨px, hc, heq ▸ hd⟩

/-- Settles O31: the two laws `comp_decomp` and `decomp_comp`, delivered by `exec`. -/
theorem decompCompRoundTrip : Obligations.DecompCompRoundTrip := by
  constructor
  · intro s₁ s₂ px w h hw hh hl hr
    obtain ⟨bs, hd, hc⟩ := comp_decomp ⟨hw, hh⟩ hl
    exact ⟨bs, exec_decomp_of_eq_ok hr hd, fun hr₂ => exec_comp_of_eq_ok hr₂ hc⟩
  · intro s₁ s₂ bs w h hw hh hl hr
    obtain ⟨px, hc, hd⟩ := decomp_comp ⟨hw, hh⟩ hl
    exact ⟨px, exec_comp_of_eq_ok hr hc, fun hr₂ => exec_decomp_of_eq_ok hr₂ hd⟩

/-- Settles O27: `evenTrunc` is the subtraction R110 writes, and EVEN has no error path. -/
theorem evenClearsTheLowBit : Obligations.EvenClearsTheLowBit :=
  ⟨by decide, fun _ _ _ hr => exec_even hr⟩

end Sys2Proof.Proofs
end

section
/-! The Block Transform's statements O33 and O34 (42_block_transform.md rules R131, R132), over the two inverse laws and the
range of the pair `btFwd`, `btInv`. -/

namespace Sys2Proof.Proofs

open Sys2Proof.Machine Sys2Proof.Claims

variable {s : State} {y : Quad} {t : TransformedBlock}

theorem exec_btfwd (hr : running s (.quad y)) : exec .btfwd s = .next (answered s (.coeffs (btFwd y))) :=
  exec_eq_answered hr rfl

theorem exec_btinv (hr : running s (.coeffs t)) : exec .btinv s = .next (answered s (.quad (btInv t))) :=
  exec_eq_answered hr rfl

/-- Each luma comes back: in its signed sum of the four coefficients the other three lumas cancel (R132). -/
@[simp] theorem btInv_btFwd (y : Quad) : btInv (btFwd y) = y := by
  obtain ⟨y₁, y₂, y₃, y₄⟩ := y
  simp only [btInv, btFwd, Quad.mk.injEq]
  refine ⟨?_, ?_, ?_, ?_⟩ <;> ring

/-- Each coefficient comes back: in its signed sum of the four lumas the other three coefficients cancel (R132). -/
@[simp] theorem btFwd_btInv (t : TransformedBlock) : btFwd (btInv t) = t := by
  obtain ⟨a, b, c, d⟩ := t
  simp only [btInv, btFwd, TransformedBlock.mk.injEq]
  refine ⟨?_, ?_, ?_, ?_⟩ <;> ring

/-- What DQA and DQD deliver gives lumas in [−0.9, 1.9]: an average in [0, 1] and three differences of size at most 0.3
(R131). -/
theorem btInv_bounds (ha₀ : 0 ≤ t.a) (ha₁ : t.a ≤ 1) (hb : |t.b| ≤ 3 / 10) (hc : |t.c| ≤ 3 / 10) (hd : |t.d| ≤ 3 / 10) :
    ∀ v ∈ [(btInv t).v1, (btInv t).v2, (btInv t).v3, (btInv t).v4], -9 / 10 ≤ v ∧ v ≤ 19 / 10 := by
  obtain ⟨hb₀, hb₁⟩ := abs_le.mp hb
  obtain ⟨hc₀, hc₁⟩ := abs_le.mp hc
  obtain ⟨hd₀, hd₁⟩ := abs_le.mp hd
  simp only [btInv, List.forall_mem_cons]
  refine ⟨?_, ?_, ?_, ?_, List.forall_mem_nil _⟩ <;> constructor <;> linarith

/-- Settles O33: `btInv` is the four sums R131 writes, with no error path; the range is `btInv_bounds`. -/
theorem btinvLumas : Obligations.BtinvLumas :=
  ⟨by decide, fun _ a b c d hr => ⟨_, exec_btinv hr, rfl, btInv_bounds (t := ⟨a, b, c, d⟩)⟩⟩

/-- Settles O34: the two laws `btInv_btFwd` and `btFwd_btInv`, delivered by `exec`. -/
theorem blockTransformInverse : Obligations.BlockTransformInverse := by
  constructor
  · intro s₁ s₂ y hr
    refine ⟨btFwd y, exec_btfwd hr, fun hr₂ => ?_⟩
    rw [exec_btinv hr₂, btInv_btFwd]
  · intro s₁ s₂ t hr
    refine ⟨btInv t, exec_btinv hr, fun hr₂ => ?_⟩
    rw [exec_btfwd hr₂, btFwd_btInv]

end Sys2Proof.Proofs
end

section
/-! The statements O39 and O41 on the chroma palette (43_quantizer.md rules R145, R151), over the rule for QCH, the mean it takes,
and the left inverse that every instance's table has. -/

namespace Sys2Proof.Proofs

open Sys2Proof.Machine Sys2Proof.Claims

theorem exec_qch {s : State} {v : Quad} (hr : running s (.quad v)) :
    exec .qch s = .next (answered s (.idx (qch s.params.chroma.table v))) :=
  exec_eq_answered hr rfl

/-- Four equal chroma values are their own mean (R145). -/
@[simp] theorem qch_const (c : ChromaTable) (t : REAL) : qch c ⟨t, t, t, t⟩ = c.indexOf t := by
  have hmean : (t + t + t + t) / 4 = t := by ring
  rw [qch, hmean]

/-- The mean of four values does not leave a range symmetric about 0 that holds all four. -/
theorem abs_mean_le {v₁ v₂ v₃ v₄ r : REAL} (h₁ : |v₁| ≤ r) (h₂ : |v₂| ≤ r) (h₃ : |v₃| ≤ r) (h₄ : |v₄| ≤ r) :
    |(v₁ + v₂ + v₃ + v₄) / 4| ≤ r := by
  rw [abs_le] at h₁ h₂ h₃ h₄ ⊢
  constructor <;> linarith

/-- Settles O39: `qch` indexes the mean R145 writes, with no error path; equal values by `qch_const`, the range by
`abs_mean_le`. -/
theorem qchIndexesTheMean : Obligations.QchIndexesTheMean := by
  refine ⟨by decide, fun _ _ _ _ _ hr => exec_qch hr, fun s t hr => ?_, fun _ _ _ _ => abs_mean_le⟩
  rw [exec_qch hr, qch_const]

/-- Settles O41: `indexOf` is a left inverse of `ofIndex` in every instance's table, so `ofIndex` is injective and `indexOf` is
its right inverse on the palette values. -/
theorem chromaInverseOnPalette : Obligations.ChromaInverseOnPalette := by
  intro ci
  have hinv : Function.LeftInverse ci.table.indexOf ci.table.ofIndex := indexOf_ofIndex (table_lawful ci)
  refine ⟨hinv, fun _ _ h => hinv.injective h, ?_⟩
  rintro _ ⟨i, rfl⟩
  rw [hinv i]

end Sys2Proof.Proofs
end

section
/-! The Word Packer's statements O51, O52 and O53 (45_word_packer.md rules R182 to R184), over the rules for UNPACK, W2B and B2W,
the clamps of the dequantizers, and the value of four joined bytes. -/

namespace Sys2Proof.Proofs

open Sys2Proof.Machine Sys2Proof.Claims

variable {s : State} {w : Codeword} {b0 b1 b2 b3 : Byte}

theorem exec_unpack (hr : running s (.codeword w)) :
    exec .unpack s = .next (answered s (.block (unpack s.params.chroma.table w))) :=
  exec_eq_answered hr rfl

theorem exec_w2b (hr : running s (.codeword w)) :
    exec .w2b s = .next (answered s (.bytes (w2b w).1 (w2b w).2.1 (w2b w).2.2.1 (w2b w).2.2.2)) :=
  exec_eq_answered hr rfl

theorem exec_b2w (hr : running s (.bytes b0 b1 b2 b3)) :
    exec .b2w s = .next (answered s (.codeword (b2w b0 b1 b2 b3))) :=
  exec_eq_answered hr rfl

theorem dqa_eq_limited (code : BitVec 9) : dqa code = limited ((code.toNat : REAL) / 511) 0 1 :=
  clamp_eq_max_min (by norm_num)

theorem dqd_eq_limited (code : BitVec 5) : dqd code = limited ((code.toInt : REAL) / 50) (-3 / 10) (3 / 10) :=
  clamp_eq_max_min (by norm_num)

theorem abs_dqd_le (code : BitVec 5) : |dqd code| ≤ 3 / 10 :=
  abs_le.mpr (neg_div (10 : REAL) 3 ▸ dqd_bounds code)

/-- Concatenation shifts the upper part by whole powers of two, so four joined bytes are the digits of the word in base 256
(R184). -/
theorem toNat_b2w (b0 b1 b2 b3 : Byte) :
    (b2w b0 b1 b2 b3).toNat = b0.toNat * 2 ^ 24 + b1.toNat * 2 ^ 16 + b2.toNat * 2 ^ 8 + b3.toNat := by
  have happend : ∀ {n : Nat} (x : BitVec n) (y : Byte), (x ++ y).toNat = x.toNat * 2 ^ 8 + y.toNat := fun x y => by
    rw [BitVec.toNat_append, ← Nat.shiftLeft_add_eq_or_of_lt y.isLt, Nat.shiftLeft_eq]
  simp only [b2w, happend]
  ring

/-- Settles O51: UNPACK is the inverse transform of the dequantized slices (`unpack_eq`); the luma range is that of the
transform on what the dequantizers can deliver (`btInv_bounds`). -/
theorem unpackRebuildsTheBlock : Obligations.UnpackRebuildsTheBlock := by
  refine ⟨by decide, fun s w a b c d pb pr hr ha hb hc hd hpb hpr => ?_⟩
  rw [← dqa_eq_limited] at ha
  rw [← dqd_eq_limited] at hb hc hd
  subst ha hb hc hd hpb hpr
  constructor
  · rw [exec_unpack hr, unpack_eq]
    rfl
  · obtain ⟨ha₀, ha₁⟩ := dqa_bounds (w.extractLsb' 23 9)
    exact btInv_bounds (t := ⟨_, _, _, _⟩) ha₀ ha₁ (abs_dqd_le _) (abs_dqd_le _) (abs_dqd_le _)

/-- Settles O52: `w2b` is the four slices R183 lists, with no error path. -/
theorem w2bIsBigEndian : Obligations.W2bIsBigEndian :=
  ⟨by decide, fun _ _ hr => exec_w2b hr⟩

/-- Settles O53: the value of the word is `toNat_b2w`; the two inverse laws `w2b_b2w` and `b2w_w2b` are delivered by `exec`. -/
theorem b2wInvertsW2b : Obligations.B2wInvertsW2b := by
  refine ⟨by decide, fun s b0 b1 b2 b3 hr => ?_, fun s w hr => ?_⟩
  · refine ⟨b2w b0 b1 b2 b3, exec_b2w hr, toNat_b2w b0 b1 b2 b3, fun s₂ hr₂ => ?_⟩
    rw [exec_w2b hr₂, w2b_b2w]
  · refine ⟨_, _, _, _, exec_w2b hr, fun s₂ hr₂ => ?_⟩
    rw [exec_b2w hr₂, b2w_w2b]

end Sys2Proof.Proofs
end

section
/-! The command word's statements O1 to O4 (30_encoding.md rules R66 to R72), over the two formats of the opcode map and the one
equivalence that joins the decoder to the encoder, `decode_eq_ok_iff`. -/

namespace Sys2Proof.Proofs

open Sys2Proof.Machine Sys2Proof.Claims Sys2Proof.Laws

variable {cmd : BitVec 32} {i : Instr} {mk : Nat → Nat → Instr} {wd off : Nat}

/-! ### The two formats (R66, R70) -/

/-- The instructions of format N, in the order of the opcode map. -/
def instrsN : List Instr :=
  [.rgb2f, .cscfwd, .cscinv, .f2rgb, .even, .crop, .decomp, .comp, .btfwd, .btinv, .qa, .dqa, .qd, .dqd, .qch, .dqch,
   .pack, .unpack, .w2b, .b2w, .encode, .decode]

/-- The operations of format F, which take `wd` and `of` from the command word. -/
def makersF : List (Nat → Nat → Instr) := [.getu, .gets, .setu, .sets]

/-- Every instruction is of one of the two formats. -/
theorem mem_formats (i : Instr) : i ∈ instrsN ∨ ∃ mk ∈ makersF, ∃ wd off, i = mk wd off := by
  cases i with
  | getu wd off | gets wd off | setu wd off | sets wd off => exact .inr ⟨_, by simp [makersF], wd, off, rfl⟩
  | _ => exact .inl (by decide)

theorem opcodesN_eq_map : opcodesN = instrsN.map Instr.opcode := rfl
theorem opcodesF_eq_map : opcodesF = makersF.map fun mk => (mk 0 0).opcode := rfl

theorem params_of_mem_instrsN : ∀ i ∈ instrsN, i.params = 0#24 := by decide
theorem wellFormed_of_mem_instrsN : ∀ i ∈ instrsN, i.wellFormed = true := by decide
theorem decode_encode_of_mem_instrsN : ∀ i ∈ instrsN, decode (encode i) = .ok i := by decide

/-- The word of a format F operation, and that the decoder reads it in format F. -/
theorem formatF_of_mem_makersF : ∀ mk ∈ makersF,
    (∀ wd off, encode (mk wd off) = (mk 0 0).opcode ++ (0#8 ++ BitVec.ofNat 8 wd ++ BitVec.ofNat 8 off)) ∧
    (∀ wd off, (mk wd off).wellFormed = (paramFits wd && paramFits off)) ∧
    ∀ cmd, cmdOp cmd = (mk 0 0).opcode → decode cmd = decodeF cmd mk := by
  simp only [makersF, List.forall_mem_cons]
  refine ⟨⟨fun _ _ => rfl, fun _ _ => rfl, fun cmd h => ?_⟩, ⟨fun _ _ => rfl, fun _ _ => rfl, fun cmd h => ?_⟩,
    ⟨fun _ _ => rfl, fun _ _ => rfl, fun cmd h => ?_⟩, ⟨fun _ _ => rfl, fun _ _ => rfl, fun cmd h => ?_⟩,
    List.forall_mem_nil _⟩
  all_goals rw [decode, h]; rfl

theorem paramFits_and_iff : (paramFits wd && paramFits off) = true ↔ wd < 256 ∧ off < 256 := by
  simp [paramFits]

/-! ### Decoder and encoder -/

/-- Format N is a literal word; a word of format F is read back field by field (R66, R67). -/
theorem decode_encode (hi : i.wellFormed = true) : decode (encode i) = .ok i := by
  rcases mem_formats i with hN | ⟨mk, hF, wd, off, rfl⟩
  · exact decode_encode_of_mem_instrsN i hN
  · obtain ⟨hword, hwf, hdec⟩ := formatF_of_mem_makersF mk hF
    rw [hwf, paramFits_and_iff] at hi
    obtain ⟨hwd, hoff, hz⟩ := params_append (mk 0 0).opcode wd off hi.1 hi.2
    rw [hword, hdec _ (cmdOp_append _ _), decodeF_eq_ok_iff, hwd, hoff]
    exact ⟨hz, rfl⟩

/-- A command word is determined by its opcode byte and the 24 bits below it (R66). -/
theorem encode_eq_of_fields (hop : cmdOp cmd = i.opcode) (hlow : cmd.extractLsb' 0 24 = i.params) : encode i = cmd := by
  rw [encode, ← hop, ← hlow, ← word_split]

/-- The 24 low bits of a format F word: `CMD[23:16]` is zero, then the two parameters as the decoder reads them (R67). -/
theorem low_eq_of_formatF (hz : cmd.extractLsb' 16 8 = 0#8) :
    cmd.extractLsb' 0 24 = 0#8 ++ BitVec.ofNat 8 (cmdWd cmd) ++ BitVec.ofNat 8 (cmdOff cmd) := by
  rw [low_split, hz, cmdWd, cmdOff, BitVec.ofNat_toNat, BitVec.ofNat_toNat, BitVec.setWidth_eq, BitVec.setWidth_eq]

/-- A word with the zero bits of format N is that of the instruction with its opcode. -/
theorem encode_eq_of_formatN (hN : i ∈ instrsN) (hop : cmdOp cmd = i.opcode) (hz : cmd.extractLsb' 0 24 = 0#24) :
    encode i = cmd :=
  encode_eq_of_fields hop (hz.trans (params_of_mem_instrsN i hN).symm)

/-- A word with the zero bits of format F is that of the operation with its opcode and the parameters it carries. -/
theorem encode_eq_of_formatF (hF : mk ∈ makersF) (hop : cmdOp cmd = (mk 0 0).opcode)
    (hz : cmd.extractLsb' 16 8 = 0#8) :
    encode (mk (cmdWd cmd) (cmdOff cmd)) = cmd ∧ (mk (cmdWd cmd) (cmdOff cmd)).wellFormed = true := by
  obtain ⟨hword, hwf, -⟩ := formatF_of_mem_makersF mk hF
  rw [hword, hwf, paramFits_and_iff, ← hop, ← low_eq_of_formatF hz, ← word_split]
  exact ⟨rfl, cmdWd_lt cmd, cmdOff_lt cmd⟩

/-- Every arm of the decoder rejects a set bit that its format requires to be zero, so nothing of a legal word is dropped. -/
theorem encode_of_decode (h : decode cmd = .ok i) : encode i = cmd ∧ i.wellFormed = true := by
  have hN : ∀ {j : Instr}, decodeN cmd j = .ok i → (cmdOp cmd).toNat = j.opcode.toNat → j ∈ instrsN →
      encode i = cmd ∧ i.wellFormed = true := by
    intro j hd hop hj
    obtain ⟨hz, rfl⟩ := decodeN_eq_ok_iff.mp hd
    exact ⟨encode_eq_of_formatN hj (BitVec.eq_of_toNat_eq hop) hz, wellFormed_of_mem_instrsN j hj⟩
  have hF : ∀ {mk : Nat → Nat → Instr}, decodeF cmd mk = .ok i → (cmdOp cmd).toNat = (mk 0 0).opcode.toNat →
      mk ∈ makersF → encode i = cmd ∧ i.wellFormed = true := by
    intro mk hd hop hmk
    obtain ⟨hz, rfl⟩ := decodeF_eq_ok_iff.mp hd
    exact encode_eq_of_formatF hmk (BitVec.eq_of_toNat_eq hop) hz
  unfold decode at h
  split at h <;> rename_i hop
  case h_17 | h_18 | h_19 | h_20 => exact hF h hop (by simp [makersF])
  case h_27 => cases h
  all_goals exact hN h hop (by decide)

/-- The decoder is the inverse of the encoder on well-formed instructions, and accepts nothing else (R66 to R72). -/
theorem decode_eq_ok_iff : decode cmd = .ok i ↔ encode i = cmd ∧ i.wellFormed = true :=
  ⟨encode_of_decode, fun ⟨he, hw⟩ => he ▸ decode_encode hw⟩

/-- Settles O2: `decode_encode`, by the two formats. -/
theorem encodeThenDecode : Obligations.EncodeThenDecode := fun _ => decode_encode

/-- Settles O3: `encode_of_decode`, by the arms of the decoder. -/
theorem decodeThenEncode : Obligations.DecodeThenEncode := fun _ _ => encode_of_decode

/-- Settles O4: a legal word is the word of an instruction of one of the two formats, so it has that format's opcode and zero
bits, and conversely a word with them is such a word. -/
theorem legalCommandWords : Obligations.LegalCommandWords := by
  intro cmd
  rw [opcodesN_eq_map, opcodesF_eq_map]
  constructor
  · rintro ⟨i, h⟩
    obtain ⟨rfl, hi⟩ := encode_of_decode h
    rcases mem_formats i with hN | ⟨mk, hF, wd, off, rfl⟩
    · refine .inl ⟨List.mem_map.mpr ⟨i, hN, (cmdOp_append _ _).symm⟩, ?_⟩
      rw [encode, params_of_mem_instrsN i hN]
      exact BitVec.extractLsb'_append_eq_right
    · obtain ⟨hword, hwf, -⟩ := formatF_of_mem_makersF mk hF
      rw [hwf, paramFits_and_iff] at hi
      rw [hword]
      exact .inr ⟨List.mem_map.mpr ⟨mk, hF, (cmdOp_append _ _).symm⟩, (params_append _ wd off hi.1 hi.2).2.2⟩
  · rintro (⟨hop, hz⟩ | ⟨hop, hz⟩)
    · obtain ⟨i, hN, hi⟩ := List.mem_map.mp hop
      exact ⟨i, decode_eq_ok_iff.mpr ⟨encode_eq_of_formatN hN hi.symm hz, wellFormed_of_mem_instrsN i hN⟩⟩
    · obtain ⟨mk, hF, hmk⟩ := List.mem_map.mp hop
      exact ⟨_, decode_eq_ok_iff.mpr (encode_eq_of_formatF hF hmk.symm hz)⟩

/-- Settles O1: 26 literal words, decoded. -/
theorem opcodeMapDecodes : Obligations.OpcodeMapDecodes := by
  unfold Obligations.OpcodeMapDecodes
  decide

end Sys2Proof.Proofs
end

section
/-! What each function of the model can raise, and what a computation delivers where it raises nothing: the statement O15 (the
table of 10_state.md rule R33, 60_exceptions.md rule R220). -/

namespace Sys2Proof.Proofs

open Sys2Proof.Machine Sys2Proof.Claims

variable {α : Type} {e : Error} {port : Option Nat} {c : ChromaTable} {w h W H wd off : Nat}

/-- A computation with a renamed result raises what the computation raises. -/
theorem map_eq_error_iff {β : Type} {x : Except Error α} {f : α → β} : x.map f = .error e ↔ x = .error e := by
  cases x <;> simp [Except.map]

theorem map_eq_ok_iff {β : Type} {x : Except Error α} {f : α → β} {b : β} : x.map f = .ok b ↔ ∃ a, x = .ok a ∧ f a = b := by
  cases x <;> simp [Except.map]

/-! ### The errors of each function -/

theorem error_of_f2rgb {p : FloatPixel} (he : f2rgb port p = .error e) : e = .contract := by
  unfold f2rgb at he
  simp only at he
  split at he
  · cases he
  · cases he; rfl

theorem error_of_crop {px : List α} (he : crop px w h = .error e) : e = .size := by
  unfold crop at he
  split at he <;> cases he
  rfl

theorem error_of_cropRaster {px : Raster} (he : cropRaster w h px = .error e) : e = .size := by
  cases px <;> exact error_of_crop (map_eq_error_iff.mp he)

theorem error_of_decomp {px : List ChromaPixel} (he : decomp px w h = .error e) : e = .contract ∨ e = .size := by
  unfold decomp at he
  split at he
  · split at he <;> cases he
    exact .inr rfl
  · cases he; exact .inl rfl

theorem error_of_comp {bs : List Block} (he : comp bs w h = .error e) : e = .contract ∨ e = .size := by
  unfold comp at he
  split at he
  · split at he <;> cases he
    exact .inr rfl
  · cases he; exact .inl rfl

theorem error_of_getu {v : Acc} (he : getu wd off v = .error e) : e = .contract := by
  unfold getu at he
  split at he <;> cases he
  rfl

theorem error_of_gets {v : Acc} (he : gets wd off v = .error e) : e = .contract := by
  unfold gets at he
  split at he <;> cases he
  rfl

theorem error_of_setu {v : Acc} {z : Int} (he : setu wd off v z = .error e) : e = .contract ∨ e = .fieldOverflow := by
  unfold setu at he
  split at he
  · split at he <;> cases he
    exact .inr rfl
  · cases he; exact .inl rfl

theorem error_of_sets {v : Acc} {z : Int} (he : sets wd off v z = .error e) : e = .contract ∨ e = .fieldOverflow := by
  unfold sets at he
  split at he
  · split at he <;> cases he
    exact .inr rfl
  · cases he; exact .inl rfl

theorem error_of_pack {b : Block} (he : pack c b = .error e) : e = .fieldOverflow := by
  rw [pack_eq] at he
  split at he <;> cases he
  rfl

theorem encodeImage_of_ne {px : List RgbIn} (hl : px.length ≠ w * h) : encodeImage c px w h = .error .size := by
  rw [encodeImage, crop_of_ne hl]
  rfl

/-- On a raster of the right length ENCODE never fails, so the length is its only error (R204). -/
theorem error_of_encodeImage {px : List RgbIn} (he : encodeImage c px w h = .error e) : e = .size := by
  by_cases hl : px.length = w * h
  · obtain ⟨ws, hok, -⟩ := encodeImage_spec c hl
    cases hok.symm.trans he
  · cases (encodeImage_of_ne hl).symm.trans he
    rfl

theorem decodeImage_of_length_mod {st : List Byte} (hl : st.length % 4 ≠ 0) :
    decodeImage c port st w h = .error .malformedStream := by
  rw [decodeImage, if_pos hl]

theorem decodeImage_of_count {st : List Byte} (hl : st.length % 4 = 0) (hn : st.length / 4 ≠ (w / 2) * (h / 2)) :
    decodeImage c port st w h = .error .malformedStream := by
  simp only [decodeImage, hl, ne_eq, not_true_eq_false, if_false, evenTrunc_half, hn, not_false_eq_true, if_true]

/-- On an admissible port DECODE never fails on a stream of the right length (R98, R205 to R207). -/
theorem error_of_decodeImage (hc : lawful c = true) (hp : ∀ n, port = some n → 11 ≤ n) {st : List Byte}
    (he : decodeImage c port st w h = .error e) : e = .malformedStream := by
  by_cases hm : st.length % 4 = 0
  · by_cases hn : st.length / 4 = (w / 2) * (h / 2)
    · obtain ⟨px, hok, -⟩ := decodeImage_spec hc hp (st := st) (w := w) (h := h) (by omega)
      cases hok.symm.trans he
    · cases (decodeImage_of_count hm hn).symm.trans he
      rfl
  · cases (decodeImage_of_length_mod hm).symm.trans he
    rfl

theorem admissible_iff {ps : Params} : ps.admissible = true ↔ ∀ n, ps.rgboW = some n → 11 ≤ n := by
  unfold Params.admissible
  split <;> simp [*]

/-- The errors an operation can raise on an admissible port are those of its row (R33). -/
theorem code_mem_errorCodes {ps : Params} {i : Instr} {p : Payload} (ha : ps.admissible = true)
    (hx : computed ps i p = some (.error e)) : e.code ∈ errorCodes i := by
  cases i <;> obtain ⟨a, -, he⟩ := Option.map_eq_some_iff.mp hx
  case f2rgb => rw [error_of_f2rgb (map_eq_error_iff.mp he)]; exact List.mem_cons_self
  case crop => rw [error_of_cropRaster he]; exact List.mem_cons_self
  case decomp =>
    obtain rfl | rfl := error_of_decomp (map_eq_error_iff.mp he)
    · exact List.mem_cons_self
    · exact List.mem_cons_of_mem _ List.mem_cons_self
  case comp =>
    obtain rfl | rfl := error_of_comp (map_eq_error_iff.mp he)
    · exact List.mem_cons_self
    · exact List.mem_cons_of_mem _ List.mem_cons_self
  case getu => rw [error_of_getu (map_eq_error_iff.mp he)]; exact List.mem_cons_self
  case gets => rw [error_of_gets (map_eq_error_iff.mp he)]; exact List.mem_cons_self
  case setu =>
    obtain rfl | rfl := error_of_setu (map_eq_error_iff.mp he)
    · exact List.mem_cons_self
    · exact List.mem_cons_of_mem _ List.mem_cons_self
  case sets =>
    obtain rfl | rfl := error_of_sets (map_eq_error_iff.mp he)
    · exact List.mem_cons_self
    · exact List.mem_cons_of_mem _ List.mem_cons_self
  case pack => rw [error_of_pack (map_eq_error_iff.mp he)]; exact List.mem_cons_self
  case encode => rw [error_of_encodeImage (map_eq_error_iff.mp he)]; exact List.mem_cons_self
  case decode =>
    rw [error_of_decodeImage (table_lawful _) (admissible_iff.mp ha) (map_eq_error_iff.mp he)]
    exact List.mem_cons_self
  all_goals cases he

/-! ### The type and the dimensions of a result -/

theorem dimFits_evenTrunc {n : Nat} (hn : dimFits port n = true) : dimFits port (evenTrunc n) = true := by
  cases port with
  | none => rfl
  | some w => exact decide_eq_true ((evenTrunc_le n).trans_lt (of_decide_eq_true hn))

theorem dims_of_crop {px out : List α} (hok : crop px w h = .ok (out, W, H)) : W = evenTrunc w ∧ H = evenTrunc h := by
  unfold crop at hok
  split at hok <;> cases hok
  exact ⟨rfl, rfl⟩

theorem dims_of_encodeImage {px : List RgbIn} {st : List Byte} (hok : encodeImage c px w h = .ok (st, W, H)) :
    W = evenTrunc w ∧ H = evenTrunc h := by
  by_cases hl : px.length = w * h
  · obtain ⟨ws, hspec, -⟩ := encodeImage_spec c hl
    cases hspec.symm.trans hok
    exact ⟨rfl, rfl⟩
  · cases (encodeImage_of_ne hl).symm.trans hok

/-- CROP gives a raster of the type it was given, of the even-truncated dimensions (R112). -/
theorem kind_of_cropRaster {px : Raster} {q : Payload} (hok : cropRaster w h px = .ok q) :
    ∃ out : Raster, q = .raster out (evenTrunc w) (evenTrunc h) ∧ out.kind = px.kind := by
  cases px
  all_goals
    obtain ⟨⟨out, W, H⟩, hc, rfl⟩ := map_eq_ok_iff.mp hok
    obtain ⟨rfl, rfl⟩ := dims_of_crop hc
    exact ⟨_, rfl, rfl⟩

theorem dimsFit_pair_iff {p : Payload} (hd : p.dimensions = [w, h]) :
    p.dimsFit port = true ↔ dimFits port w = true ∧ dimFits port h = true := by
  simp [Payload.dimsFit, hd]

/-- A payload of the even-truncated dimensions of one that fits, fits. -/
theorem dimsFit_of_evenTrunc {p q : Payload} (hp : p.dimensions = [w, h])
    (hq : q.dimensions = [evenTrunc w, evenTrunc h]) (hf : p.dimsFit port = true) : q.dimsFit port = true := by
  obtain ⟨hw, hh⟩ := (dimsFit_pair_iff hp).mp hf
  exact (dimsFit_pair_iff hq).mpr ⟨dimFits_evenTrunc hw, dimFits_evenTrunc hh⟩

/-! The payloads with dimensions, as their readers see them (R33). -/

theorem dims?_eq_some_iff {p : Payload} : p.dims? = some (w, h) ↔ p = .dims w h := by
  cases p <;> simp [Payload.dims?]

theorem raster?_eq_some_iff {p : Payload} {px : Raster} : p.raster? = some (px, w, h) ↔ p = .raster px w h := by
  cases p <;> simp [Payload.raster?]

theorem rgbInRaster?_eq_some_iff {p : Payload} {px : List RgbIn} :
    p.rgbInRaster? = some (px, w, h) ↔ p = .raster (.rgbIn px) w h := by
  cases p with
  | raster px' _ _ => cases px' <;> simp [Payload.rgbInRaster?]
  | _ => simp [Payload.rgbInRaster?]

theorem stream?_eq_some_iff {p : Payload} {st : List Byte} : p.stream? = some (st, w, h) ↔ p = .stream st w h := by
  cases p <;> simp [Payload.stream?]

/-- The result of an operation is of a type of its row, and its dimensions fit where those of the operand do (R7, R33). -/
theorem kind_mem_resKinds {ps : Params} {i : Instr} {p q : Payload} (hf : p.dimsFit port = true)
    (hx : computed ps i p = some (.ok q)) : q.kind ∈ resKinds i p.kind ∧ q.dimsFit port = true := by
  cases i <;> obtain ⟨a, hget, hok⟩ := Option.map_eq_some_iff.mp hx
  case even =>
    obtain ⟨w, h⟩ := a
    cases hok
    rw [dims?_eq_some_iff] at hget
    subst hget
    exact ⟨List.mem_cons_self, dimsFit_of_evenTrunc rfl rfl hf⟩
  case crop =>
    obtain ⟨px, w, h⟩ := a
    rw [raster?_eq_some_iff] at hget
    obtain ⟨out, rfl, hk⟩ := kind_of_cropRaster hok
    subst hget
    exact ⟨List.mem_singleton.mpr hk, dimsFit_of_evenTrunc rfl rfl hf⟩
  case encode =>
    obtain ⟨px, w, h⟩ := a
    obtain ⟨⟨st, W, H⟩, henc, rfl⟩ := map_eq_ok_iff.mp hok
    obtain ⟨rfl, rfl⟩ := dims_of_encodeImage henc
    rw [rgbInRaster?_eq_some_iff] at hget
    subst hget
    exact ⟨List.mem_cons_self, dimsFit_of_evenTrunc rfl rfl hf⟩
  case decode =>
    obtain ⟨st, w, h⟩ := a
    obtain ⟨⟨px, W, H⟩, hdec, rfl⟩ := map_eq_ok_iff.mp hok
    obtain ⟨rfl, rfl, -⟩ := decodeImage_of_ok hdec
    rw [stream?_eq_some_iff] at hget
    subst hget
    exact ⟨List.mem_cons_self, dimsFit_of_evenTrunc rfl rfl hf⟩
  case f2rgb | decomp | comp | getu | gets | setu | sets | pack =>
    obtain ⟨b, -, rfl⟩ := map_eq_ok_iff.mp hok
    exact ⟨List.mem_cons_self, rfl⟩
  all_goals
    cases hok
    exact ⟨List.mem_cons_self, rfl⟩

/-- Settles O15: an operation that answers delivers what it computes, a result of its row (`kind_mem_resKinds`) or an error of
its row (`code_mem_errorCodes`). -/
theorem resultTypesAndErrorCodes : Obligations.ResultTypesAndErrorCodes := by
  intro i s t r ha hcur hex
  obtain ⟨r', x, hr', hx, rfl⟩ := exec_eq_next_iff.mp hex
  cases hcur.symm.trans hr'
  obtain ⟨hf, hx⟩ := outcome_eq_some_iff.mp hx
  refine ⟨responseOf x, finish_responses s x, ?_⟩
  cases x with
  | ok q => exact .inl ⟨rfl, q, rfl, kind_mem_resKinds hf hx⟩
  | error e => exact .inr ⟨rfl, code_mem_errorCodes ha hx⟩

end Sys2Proof.Proofs
end

section
/-! The machine's statements O5 to O14, O16 and O17 (10_state.md rule R20, 60_exceptions.md rules R220 to R227,
70_reset_and_hazards.md rules R250 to R254), over one rule for a step that has a request to serve: `step_eq_next_iff`. -/

namespace Sys2Proof.Proofs

open Sys2Proof.Machine Sys2Proof.Claims

variable {s t : State} {r : Request} {ps : Params} {i : Instr}

/-! ### What one request is answered -/

/-- The response to a request under the static parameters; none where `ARG` is not of the type its operation fixes (R33, R72). -/
def served (ps : Params) (r : Request) : Option Response :=
  match decode r.cmd with
  | .ok i => (outcome ps i r.arg).map responseOf
  | .error _ => some ⟨Error.illegal.code, none⟩

theorem served_of_decode (hd : decode r.cmd = .ok i) : served ps r = (outcome ps i r.arg).map responseOf := by
  simp only [served, hd]

theorem served_of_illegal {e : DecodeError} (hd : decode r.cmd = .error e) :
    served ps r = some ⟨Error.illegal.code, none⟩ := by
  simp only [served, hd]

/-- Exactly the well-typed requests are answered. -/
theorem served_isSome : (served ps r).isSome = r.wellTyped ps := by
  unfold Request.wellTyped
  cases hd : decode r.cmd with
  | ok i => rw [served_of_decode hd, Option.isSome_map, outcome_isSome]
  | error e => rw [served_of_illegal hd]; rfl

/-- E_RESOURCE is no error of the CORE (R223). -/
theorem resource_code_notMem (i : Instr) : Error.resource.code ∉ errorCodes i := by
  cases i <;> simp [errorCodes, Error.code, eContract, eSize, eFieldOverflow, eMalformedStream]

theorem wellFormed_error {e : Error} (he : e ≠ .resource) : Response.wellFormed ⟨e.code, none⟩ = true := by
  cases e with
  | resource => exact absurd rfl he
  | _ => rfl

/-- The response to a request is one of the forms R220 gives. -/
theorem wellFormed_of_served {a : Response} (ha : ps.admissible = true) (hs : served ps r = some a) :
    a.wellFormed = true := by
  cases hd : decode r.cmd with
  | error e =>
    cases (served_of_illegal hd).symm.trans hs
    decide
  | ok i =>
    rw [served_of_decode hd] at hs
    obtain ⟨x, hx, rfl⟩ := Option.map_eq_some_iff.mp hs
    cases x with
    | ok q => rfl
    | error e =>
      refine wellFormed_error fun he => resource_code_notMem i ?_
      rw [← he]
      exact code_mem_errorCodes ha (outcome_eq_some_iff.mp hx).2

/-! ### A step with a request to serve -/

/-- A step accepts its request, answers what `served` gives and does nothing else. -/
theorem step_eq_next_iff (h : s.accept.current = some r) :
    step s = .next t ↔ ∃ a, served s.params r = some a ∧ t = s.accept.deliver a := by
  cases hd : decode r.cmd with
  | error e =>
    have hstep : step s = .next (s.accept.deliver ⟨Error.illegal.code, none⟩) := by
      simp only [step, h, hd]; rfl
    rw [hstep, served_of_illegal hd]
    simp [eq_comm]
  | ok i =>
    have hstep : step s = exec i s.accept := by simp only [step, h, hd]
    rw [hstep, served_of_decode hd, exec_eq_next_iff, h, accept_params]
    cases hx : outcome s.params i r.arg <;> simp [hx, finish_eq_deliver]

theorem step_of_accept_none (h : s.accept.current = none) : step s = .next s := by
  rcases accept_cases s with ⟨r, hc, ha⟩ | ⟨r, rest, -, -, ha⟩ | ⟨hc, hw, -⟩
  · rw [ha, hc] at h; cases h
  · rw [ha] at h; cases h
  · exact step_of_idle hc hw

/-! ### The invariant -/

theorem inv_iff : s.inv = true ↔ s.params.admissible = true ∧ (∀ r, s.current = some r → r.wellTyped s.params = true) ∧
    (∀ r ∈ s.waiting, r.wellTyped s.params = true) ∧ ∀ a ∈ s.responses, a.wellFormed = true := by
  simp [State.inv, and_assoc, Option.all_eq_true]

/-- The request a step serves, and those that wait on, are among those the state held. -/
theorem wellTyped_of_accept (hs : s.inv = true) :
    (∀ r, s.accept.current = some r → r.wellTyped s.params = true) ∧
      ∀ r ∈ s.accept.waiting, r.wellTyped s.params = true := by
  obtain ⟨-, hcur, hwait, -⟩ := inv_iff.mp hs
  rcases accept_cases s with ⟨r, hc, ha⟩ | ⟨r, rest, hc, hw, ha⟩ | ⟨hc, hw, ha⟩
  · rw [ha]; exact ⟨hcur, hwait⟩
  · rw [hw, List.forall_mem_cons] at hwait
    rw [ha]
    exact ⟨fun r' hr' => by cases hr'; exact hwait.1, hwait.2⟩
  · rw [ha]; exact ⟨hcur, hwait⟩

/-- Settles O10: an idle step changes nothing; any other only appends a response of the form R220 gives
(`wellFormed_of_served`) and takes its request off those that wait. -/
theorem stepKeepsInvariant : Obligations.StepKeepsInvariant := by
  intro s t hs hst
  cases hr : s.accept.current with
  | none =>
    rw [step_of_accept_none hr] at hst
    cases hst
    exact hs
  | some r =>
    obtain ⟨a, ha, rfl⟩ := (step_eq_next_iff hr).mp hst
    obtain ⟨hadm, -, -, hresp⟩ := inv_iff.mp hs
    have hresps : ∀ b ∈ s.responses ++ [a], b.wellFormed = true := fun b hb => by
      rcases List.mem_append.mp hb with hb | hb
      · exact hresp b hb
      · rw [List.mem_singleton.mp hb]
        exact wellFormed_of_served hadm ha
    rw [inv_iff, deliver_params, deliver_current, deliver_waiting, deliver_responses, accept_params, accept_responses]
    exact ⟨hadm, fun _ h => absurd h (Option.some_ne_none _).symm, (wellTyped_of_accept hs).2, hresps⟩

/-- Settles O11: a state of the invariant is idle, or serves a well-typed request, and those are answered. -/
theorem invariantStatesAreSafe : Obligations.InvariantStatesAreSafe := by
  intro s hs
  cases hr : s.accept.current with
  | none => exact ⟨s, step_of_accept_none hr⟩
  | some r =>
    have hwt := (wellTyped_of_accept hs).1 r hr
    rw [← served_isSome] at hwt
    obtain ⟨a, ha⟩ := Option.isSome_iff_exists.mp hwt
    exact ⟨_, (step_eq_next_iff hr).mpr ⟨a, ha, rfl⟩⟩

/-- Settles O9: at reset nothing is in progress, waiting or answered, and the port is unbounded. -/
theorem resetMeetsInvariant : Obligations.ResetMeetsInvariant := by
  unfold Obligations.ResetMeetsInvariant
  decide

/-! ### A sequence of requests -/

/-- The response to a well-typed request. -/
def respond (ps : Params) (r : Request) : Response := (served ps r).getD ⟨Error.illegal.code, none⟩

/-- An idle CORE answers the oldest waiting request. -/
theorem step_of_wellTyped {rest : List Request} {out : List Response} (hr : r.wellTyped ps = true) :
    step { params := ps, current := none, waiting := r :: rest, responses := out } =
      .next { params := ps, current := none, waiting := rest, responses := out ++ [respond ps r] } := by
  rw [← served_isSome] at hr
  obtain ⟨a, ha⟩ := Option.isSome_iff_exists.mp hr
  have hresp : respond ps r = a := by rw [respond, ha, Option.getD_some]
  rw [hresp]
  exact (step_eq_next_iff rfl).mpr ⟨a, ha, rfl⟩

theorem run_succ (h : step s = .next t) (k : Nat) : core.run (k + 1) s = core.run k t := by
  have hstep : core.step s = .next t := h
  simp only [Host.Core.run, hstep]

/-- Settles O12: by induction on the waiting requests; each step answers the oldest (`step_of_wellTyped`). -/
theorem responsesAreAFunctionOfRequests : Obligations.ResponsesAreAFunctionOfRequests := by
  refine ⟨respond, fun ps rs => ?_⟩
  induction rs with
  | nil => intro out _; simp [Host.Core.run]
  | cons r rs ih =>
    intro out hwt
    obtain ⟨hr, hrs⟩ := List.forall_mem_cons.mp hwt
    rw [List.length_cons, run_succ (step_of_wellTyped hr), ih _ hrs, List.map_cons, List.append_assoc, List.singleton_append]

/-! ### A request presented while others are to be served -/

/-- A CORE that has something to serve takes it whether or not one more request is presented (R252). -/
theorem accept_present (hs : s.current.isSome = true ∨ s.waiting ≠ []) :
    (s.present r).accept = s.accept.present r ∧ ∃ r₀, s.accept.current = some r₀ := by
  rcases accept_cases s with ⟨r₀, hc, ha⟩ | ⟨r₀, rest, hc, hw, ha⟩ | ⟨hc, hw, -⟩
  · rw [ha]
    exact ⟨accept_of_current hc, r₀, hc⟩
  · have hw' : (s.present r).waiting = r₀ :: (rest ++ [r]) := by rw [present_waiting, hw, List.cons_append]
    rw [ha, accept_of_waiting (s := s.present r) hc hw']
    exact ⟨rfl, r₀, rfl⟩
  · simp [hc, hw] at hs

/-- Settles O17: the request served is the same, and delivering its response leaves the waiting list alone. -/
theorem presentedRequestWaits : Obligations.PresentedRequestWaits := by
  intro s t r hs hst
  obtain ⟨hp, r₀, hr₀⟩ := accept_present (r := r) hs
  obtain ⟨a, ha, rfl⟩ := (step_eq_next_iff hr₀).mp hst
  have hcur : (s.present r).accept.current = some r₀ := by rw [hp, present_current, hr₀]
  exact (step_eq_next_iff hcur).mpr ⟨a, ha, by rw [hp]; rfl⟩

/-! ### What a step runs -/

/-- Settles O5: the two rules for a legal word, `step_of_current` and `step_of_waiting`. -/
theorem stepRunsDecodedInstruction : Obligations.StepRunsDecodedInstruction :=
  ⟨fun _ _ _ => step_of_current, fun _ _ _ _ => step_of_waiting⟩

/-- Settles O6: a word that decodes to no instruction decodes to an error, which step raises as E_ILLEGAL. -/
theorem illegalCommandFails : Obligations.IllegalCommandFails := by
  intro s cmd arg rest hcmd
  cases hd : decode cmd with
  | ok i => exact absurd hd (hcmd i)
  | error e => exact ⟨fun hc => step_of_illegal_current hc hd, fun hc hw => step_of_illegal_waiting hc hw hd⟩

/-- Settles O8: the fields at reset, the idle step and the reset input. -/
theorem resetIsIdle : Obligations.ResetIsIdle :=
  ⟨rfl, rfl, rfl, fun _ => step_of_idle, fun _ => rfl⟩

/-- A request given the word of `i` keeps or gets a payload that `i` takes. -/
theorem withCmd_encode (ps : Params) (r : Request) (hi : i.wellFormed = true) :
    ∃ p, accepts ps i p = true ∧ r.withCmd ps (encode i) = ⟨encode i, p⟩ := by
  simp only [Request.withCmd, decode_encode hi]
  split
  · exact ⟨r.arg, ‹_›, rfl⟩
  · exact ⟨zeroArg i, accepts_zeroArg ps i, rfl⟩

theorem ofNat_toNat_mod (w : BitVec 32) : BitVec.ofNat 32 (w.toNat % 2 ^ 32) = w := by
  rw [Nat.mod_eq_of_lt w.isLt, BitVec.ofNat_toNat, BitVec.setWidth_eq]

/-! Where the word of `i` goes: into the request in progress, else the oldest waiting one, else one presented for it. -/

theorem withFetchWord_of_current (hc : s.current = some r) :
    s.withFetchWord 32 (encode i).toNat = { s with current := some (r.withCmd s.params (encode i)) } := by
  simp only [State.withFetchWord, ofNat_toNat_mod, hc]

theorem withFetchWord_of_waiting {rest : List Request} (hc : s.current = none) (hw : s.waiting = r :: rest) :
    s.withFetchWord 32 (encode i).toNat = { s with waiting := r.withCmd s.params (encode i) :: rest } := by
  simp only [State.withFetchWord, ofNat_toNat_mod, hc, hw]

theorem withFetchWord_of_idle (hc : s.current = none) (hw : s.waiting = []) :
    s.withFetchWord 32 (encode i).toNat =
      { s with waiting := [Request.withCmd s.params ⟨encode i, .dims 0 0⟩ (encode i)] } := by
  simp only [State.withFetchWord, ofNat_toNat_mod, hc, hw]

/-- Settles O7: the word is put into the request that the next step takes, whichever of the three places that is. -/
theorem placedWordRunsNext : Obligations.PlacedWordRunsNext := by
  intro s i hi
  have hd := decode_encode hi
  refine ⟨by rw [decodeTableWord, ofNat_toNat_mod, hd], ?_⟩
  cases hc : s.current with
  | some r =>
    obtain ⟨p, hp, hr⟩ := withCmd_encode s.params r hi
    refine ⟨p, hp, ?_⟩
    rw [withFetchWord_of_current hc, hr]
    exact step_of_current rfl hd
  | none =>
    cases hw : s.waiting with
    | cons r rest =>
      obtain ⟨p, hp, hr⟩ := withCmd_encode s.params r hi
      refine ⟨p, hp, ?_⟩
      rw [withFetchWord_of_waiting hc hw, hr]
      exact step_of_waiting hc rfl hd
    | nil =>
      obtain ⟨p, hp, hr⟩ := withCmd_encode s.params ⟨encode i, .dims 0 0⟩ hi
      refine ⟨p, hp, ?_⟩
      rw [withFetchWord_of_idle hc hw, hr]
      exact step_of_waiting hc rfl hd

/-! ### What an operation runs on, changes and sees -/

/-- Settles O13: an operation answers exactly where its transaction has an outcome, which is where it accepts the payload. -/
theorem runsExactlyOnItsOperandType : Obligations.RunsExactlyOnItsOperandType := by
  intro i s
  constructor
  · rintro ⟨t, ht⟩
    obtain ⟨r, x, hr, hx, -⟩ := exec_eq_next_iff.mp ht
    exact ⟨r, hr, by rw [← outcome_isSome, hx, Option.isSome_some]⟩
  · rintro ⟨r, hr, ha⟩
    rw [← outcome_isSome] at ha
    obtain ⟨x, hx⟩ := Option.isSome_iff_exists.mp ha
    exact ⟨_, exec_of_outcome hr hx⟩

/-- Settles O14: whatever an operation computes, it ends by delivering one response. -/
theorem operationFrame : Obligations.OperationFrame := by
  intro i s t h
  obtain ⟨r, x, -, -, rfl⟩ := exec_eq_next_iff.mp h
  exact ⟨finish_params s x, finish_waiting s x, finish_current s x, responseOf x, finish_responses s x⟩

/-- Settles O16: the outcome of a transaction is a function of the parameters and the request. -/
theorem transactionsDoNotInteract : Obligations.TransactionsDoNotInteract := by
  intro i s₁ s₂ t₁ t₂ hp hc h₁ h₂
  obtain ⟨r, x, hr, hx, rfl⟩ := exec_eq_next_iff.mp h₁
  obtain ⟨r', x', hr', hx', rfl⟩ := exec_eq_next_iff.mp h₂
  cases (hr.symm.trans hc).trans hr'
  rw [hp] at hx
  cases hx.symm.trans hx'
  exact ⟨responseOf x, finish_responses s₁ x, finish_responses s₂ x⟩

end Sys2Proof.Proofs
end

section
/-! Rounding, truncating and limiting, the statement O19, and the Color Converter's statements O21, O22 and O24 to O26
(00_scope.md rule R10, 40_color_converter.md rules R93 to R98). -/

namespace Sys2Proof.Proofs

open Sys2Proof.Machine Sys2Proof.Claims

variable {x : REAL} {z : Int}

/-! ### Functions on REAL -/

/-- At a tie the half unit points away from zero, so the integer has the larger magnitude (R10). -/
theorem nearestAway_roundAway (x : REAL) : nearestAway x (roundAway x) := by
  refine ⟨abs_sub_roundAway x, fun htie => ?_⟩
  rcases lt_or_ge x 0 with hx | hx
  · obtain ⟨hlo, hhi⟩ := roundAway_of_neg hx
    have hz : (roundAway x : REAL) = x - 1 / 2 := by
      rcases eq_or_eq_neg_of_abs_eq htie with h | h <;> linarith
    rw [hz, abs_of_neg hx, abs_of_neg (by linarith)]
    linarith
  · obtain ⟨hlo, hhi⟩ := roundAway_of_nonneg hx
    have hz : (roundAway x : REAL) = x + 1 / 2 := by
      rcases eq_or_eq_neg_of_abs_eq htie with h | h <;> linarith
    rw [hz, abs_of_nonneg hx, abs_of_nonneg (by linarith)]
    linarith

theorem truncated_trunc (x : REAL) : truncated x (trunc x) := by
  constructor
  · intro hx
    exact (trunc_of_nonneg hx).2
  · intro hx
    obtain ⟨-, hle, hlt⟩ := trunc_of_neg hx
    exact ⟨hle, by linarith⟩

/-- Discarding the fraction leaves one integer: two that do lie less than one apart. -/
theorem eq_trunc_of_truncated (hz : truncated x z) : z = trunc x := by
  obtain ⟨hnn, hneg⟩ := hz
  obtain ⟨hnn', hneg'⟩ := truncated_trunc x
  have hclose : (z : REAL) < (trunc x : REAL) + 1 ∧ (trunc x : REAL) < (z : REAL) + 1 := by
    rcases lt_or_ge x 0 with hx | hx
    · have h₁ := hneg hx
      have h₂ := hneg' hx
      constructor <;> linarith
    · have h₁ := hnn hx
      have h₂ := hnn' hx
      constructor <;> linarith
  obtain ⟨h₁, h₂⟩ := hclose
  have h₁' : z < trunc x + 1 := by exact_mod_cast h₁
  have h₂' : trunc x < z + 1 := by exact_mod_cast h₂
  omega

/-- Settles O19: the tie rule is `nearestAway_roundAway`, truncation `truncated_trunc`, the limits `clamp_eq_max_min`. -/
theorem roundTruncClamp : Obligations.RoundTruncClamp :=
  ⟨nearestAway_roundAway, truncated_trunc, fun _ _ _ => clamp_eq_max_min⟩

/-! ### The forward matrix and the composite -/

theorem exec_cscfwd {s : State} {p : FloatPixel} (hr : running s (.float p)) :
    exec .cscfwd s = .next (answered s (.chroma (cscFwd p))) :=
  exec_eq_answered hr rfl

/-- The luma row of the matrix sums to 1 and each chroma row to 0 (R93). -/
theorem cscFwd_grey (t : REAL) : cscFwd ⟨t, t, t⟩ = ⟨t, 0, 0⟩ := by
  simp only [cscFwd, ChromaPixel.mk.injEq]
  refine ⟨?_, ?_, ?_⟩ <;> ring

/-- The product of the two matrices (R97). -/
theorem cscInv_cscFwd (p : FloatPixel) : cscInv (cscFwd p) =
    ⟨p.r - 576 / 1000000000 * p.g + 576 / 1000000000 * p.b,
     132096 / 1000000000000 * p.r + (1 + 41472 / 1000000000000) * p.g - 173568 / 1000000000000 * p.b,
     -(192 / 1000000000) * p.r + 192 / 1000000000 * p.g + p.b⟩ := by
  simp only [cscInv, cscFwd, FloatPixel.mk.injEq]
  refine ⟨?_, ?_, ?_⟩ <;> ring

/-- Settles O21: `cscFwd` is the matrix R93 writes, with no error path. -/
theorem cscfwdIsTheFixedMatrix : Obligations.CscfwdIsTheFixedMatrix :=
  ⟨by decide, fun _ _ hr => exec_cscfwd hr⟩

/-- Settles O22: the ranges are `cscFwd_bounds`, the grey pixel is `cscFwd_grey`. -/
theorem cscfwdKeepsNominalRange : Obligations.CscfwdKeepsNominalRange := by
  refine ⟨fun p hr₀ hr₁ hg₀ hg₁ hb₀ hb₁ => ?_, cscFwd_grey⟩
  obtain ⟨⟨hy₀, hy₁⟩, ⟨hpb₀, hpb₁⟩, hpr⟩ := cscFwd_bounds ⟨hr₀, hr₁⟩ ⟨hg₀, hg₁⟩ ⟨hb₀, hb₁⟩
  exact ⟨hy₀, hy₁, hpb₀, hpb₁, hpr⟩

/-- Settles O26: the composite `cscInv_cscFwd`, delivered by `exec`. -/
theorem colorMapsAreNotInverse : Obligations.ColorMapsAreNotInverse := by
  intro s₁ s₂ p hr
  refine ⟨cscFwd p, exec_cscfwd hr, fun hr₂ => ?_⟩
  rw [exec_cscinv hr₂, cscInv_cscFwd]

/-! ### F2RGB and its port -/

variable {s : State} {p : FloatPixel} {port : Option Nat}

/-- F2RGB delivers what `f2rgb` computes, its error status included. -/
theorem exec_f2rgb (hr : running s (.float p)) :
    exec .f2rgb s = .next (s.finish ((f2rgb s.params.rgboW p).map .rgbOut)) :=
  exec_of_running hr rfl

theorem f2rgb_of_not_fits (hf : rgbFits port (scaleToRgb p) ≠ true) : f2rgb port p = .error .contract := by
  simp only [f2rgb, if_neg hf]

theorem exec_f2rgb_of_fits (hr : running s (.float p)) (hf : rgbFits s.params.rgboW (scaleToRgb p) = true) :
    exec .f2rgb s = .next (answered s (.rgbOut (scaleToRgb p))) := by
  rw [exec_f2rgb hr, f2rgb_eq_ok_iff.mpr ⟨rfl, hf⟩]
  rfl

theorem rgbFits_none (q : RgbOut) : rgbFits none q = true := rfl

/-- On a bounded port all three channels must be values of its width (R98). -/
theorem rgbFits_some_iff {w : Nat} {q : RgbOut} (hw : 1 ≤ w) :
    rgbFits (some w) q = true ↔ fitsPort w q.red ∧ fitsPort w q.green ∧ fitsPort w q.blue := by
  simp only [rgbFits, channelFits, Bool.and_eq_true, fitss_iff_of_pos hw, fitsPort, and_assoc]

/-- Settles O24: the truncated integers are `scaleToRgb`'s, and they fit or do not (`rgbFits_some_iff`). -/
theorem f2rgbTruncatesOrFails : Obligations.F2rgbTruncatesOrFails := by
  refine ⟨by decide, fun s p zr zg zb hr hzr hzg hzb => ?_⟩
  have hq : scaleToRgb p = ⟨zr, zg, zb⟩ := by
    rw [eq_trunc_of_truncated hzr, eq_trunc_of_truncated hzg, eq_trunc_of_truncated hzb]
    rfl
  rw [← hq]
  refine ⟨fun hp => ?_, fun w hp hw hfr hfg hfb => ?_, fun w hp hw hnf => ?_⟩
  · exact exec_f2rgb_of_fits hr (hp ▸ rgbFits_none _)
  · refine exec_f2rgb_of_fits hr ?_
    rw [hp, rgbFits_some_iff hw, hq]
    exact ⟨hfr, hfg, hfb⟩
  · have hn : rgbFits s.params.rgboW (scaleToRgb p) ≠ true := by rwa [hp, ne_eq, rgbFits_some_iff hw, hq]
    rw [exec_f2rgb hr, f2rgb_of_not_fits hn]
    rfl

theorem mul_channel (c : Byte) : 255 * ((c.toNat : REAL) / 255) = ((c.toNat : Int) : REAL) := by
  push_cast
  ring

/-- Scaling undoes the division, and an 8-bit channel has no fraction to discard (R92, R95). -/
theorem scaleToRgb_rgb2f (p : RgbIn) : scaleToRgb (rgb2f p) = ⟨p.red.toNat, p.green.toNat, p.blue.toNat⟩ := by
  simp only [scaleToRgb, rgb2f, mul_channel, trunc_intCast]

/-- An 8-bit channel fits every admissible port. -/
theorem rgbFits_rgb2f (hp : ∀ w, port = some w → 11 ≤ w) (p : RgbIn) : rgbFits port (scaleToRgb (rgb2f p)) = true := by
  have hc : ∀ c : Byte, channelFits port (trunc (255 * ((c.toNat : REAL) / 255))) = true := fun c => by
    obtain ⟨h₀, h₁⟩ := channel_bounds c
    exact channelFits_trunc hp (by linarith) (by linarith)
  simp only [rgbFits, Bool.and_eq_true]
  exact ⟨⟨hc _, hc _⟩, hc _⟩

/-- Settles O25: `scaleToRgb_rgb2f`, on a port that the channels fit (`rgbFits_rgb2f`). -/
theorem f2rgbUndoesRgb2f : Obligations.F2rgbUndoesRgb2f := by
  intro s₁ s₂ p hr ha
  refine ⟨rgb2f p, exec_rgb2f hr, fun hr₂ => ?_⟩
  rw [exec_f2rgb_of_fits hr₂ (rgbFits_rgb2f (admissible_iff.mp ha) p), scaleToRgb_rgb2f]

end Sys2Proof.Proofs
end

section
/-! The Block Composer's statements O28 to O30 and the Block Transform's O32 (41_block_composer.md rules R111 to R117,
42_block_transform.md rule R130). -/

namespace Sys2Proof.Proofs

open Sys2Proof.Machine Sys2Proof.Claims

variable {s : State} {w h : Nat}

/-- CROP delivers what `cropRaster` computes, its error status included. -/
theorem exec_crop {px : Raster} (hr : running s (.raster px w h)) :
    exec .crop s = .next (s.finish (cropRaster w h px)) :=
  exec_of_running hr rfl

/-- CROP does the same on every raster that it crops by `crop`: E_SIZE, or the even part with the original stride (R112). -/
theorem cropOf_of_cropRaster {α : Type} {mk : List α → Raster}
    (hmk : ∀ px w h, cropRaster w h (mk px) = (crop px w h).map fun out => .raster (mk out.1) out.2.1 out.2.2) :
    cropOf mk := by
  intro s px w h hr
  rw [exec_crop hr, hmk]
  constructor
  · intro hl
    rw [crop_of_ne hl]
    rfl
  · intro hl
    obtain ⟨out, hok, hol, hat⟩ := crop_spec hl
    refine ⟨out, by rw [hok]; rfl, hol, fun i j hi hj => ?_⟩
    obtain ⟨p, hp⟩ := Option.isSome_iff_exists.mp
      (isSome_getElem_raster hl (hi.trans_le (evenTrunc_le h)) (hj.trans_le (evenTrunc_le w)))
    exact ⟨p, (hat i hi j hj).trans hp, hp⟩

/-- Settles O28: `cropRaster` runs `crop` on the rasters of each of the four pixel types. -/
theorem cropKeepsTheEvenPart : Obligations.CropKeepsTheEvenPart :=
  ⟨by decide, cropOf_of_cropRaster fun _ _ _ => rfl, cropOf_of_cropRaster fun _ _ _ => rfl,
    cropOf_of_cropRaster fun _ _ _ => rfl, cropOf_of_cropRaster fun _ _ _ => rfl⟩

/-- Settles O29: the checks of R115 in their order, then `decomp_spec` with the four places of each Block. -/
theorem decompBuildsBlocks : Obligations.DecompBuildsBlocks := by
  refine ⟨by decide, fun s px w h hr => ⟨fun hodd => ?_, fun hw hh hl => ?_, fun hw hh hl => ?_⟩⟩
  · rw [exec_decomp hr, decomp_of_odd (by omega)]
    rfl
  · rw [exec_decomp hr, decomp_of_ne ⟨hw, hh⟩ hl]
    rfl
  · obtain ⟨bs, hd, hbl, hbs⟩ := decomp_spec ⟨hw, hh⟩ hl
    refine ⟨bs, exec_decomp_of_eq_ok hr hd, hbl, fun bi bj hi hj => ?_⟩
    obtain ⟨b, hb, hat⟩ := hbs bi hi bj hj
    exact ⟨b, hb, blockAt_eq_some_iff.mp hat⟩

/-- Settles O30: the checks of R115 in their order, then `comp_spec` with the four places of each Block. -/
theorem compPlacesPixels : Obligations.CompPlacesPixels := by
  refine ⟨by decide, fun s bs w h hr => ⟨fun hodd => ?_, fun hw hh hl => ?_, fun hw hh hl => ?_⟩⟩
  · rw [exec_comp hr, comp_of_odd (by omega)]
    rfl
  · rw [exec_comp hr, comp_of_ne ⟨hw, hh⟩ hl]
    rfl
  · obtain ⟨px, hc, hpl, hpx⟩ := comp_spec ⟨hw, hh⟩ hl
    refine ⟨px, exec_comp_of_eq_ok hr hc, hpl, fun bi bj hi hj => ?_⟩
    obtain ⟨b, hb⟩ := Option.isSome_iff_exists.mp (isSome_getElem_raster hl hi hj)
    have hat : blockAt px w (2 * bi) (2 * bj) = some b :=
      blockAt_eq_some_iff_pixelAt.mpr fun i j hbi hbj => by
        rw [hpx i (by omega) j (by omega), hbi, hbj, hb, Option.map_some]
    exact ⟨b, hb, blockAt_eq_some_iff.mp hat⟩

/-- Settles O32: `btFwd` is the four quotients R130 writes, with no error path. -/
theorem btfwdCoefficients : Obligations.BtfwdCoefficients :=
  ⟨by decide, fun _ _ _ _ _ hr => exec_btfwd hr⟩

end Sys2Proof.Proofs
end

section
/-! The Quantizer's statements O35 to O38, O40, O42 and O43 (43_quantizer.md rules R141 to R147, R152), over when a rounded number
lies in a range and what a dequantized code is. -/

namespace Sys2Proof.Proofs

open Sys2Proof.Machine Sys2Proof.Claims

variable {s : State} {a x : REAL}

/-! ### When a rounded number lies in a range -/

theorem roundAway_nonneg_iff : 0 ≤ roundAway x ↔ -1 / 2 < x := by
  constructor
  · intro hz
    have hz' : (0 : REAL) ≤ (roundAway x : REAL) := by exact_mod_cast hz
    rcases lt_or_ge x 0 with hx | hx
    · linarith [roundAway_of_neg hx]
    · linarith
  · intro hx
    obtain ⟨hlo, hhi⟩ := abs_le.mp (abs_sub_roundAway x)
    have hz : ((-1 : Int) : REAL) < (roundAway x : REAL) := by push_cast; linarith
    have hz' : -1 < roundAway x := by exact_mod_cast hz
    omega

theorem roundAway_le_iff {n : Nat} : roundAway x ≤ n ↔ x < n + 1 / 2 := by
  have hn : (0 : REAL) ≤ n := n.cast_nonneg
  constructor
  · intro hz
    have hz' : (roundAway x : REAL) ≤ (n : REAL) := by exact_mod_cast hz
    rcases lt_or_ge x 0 with hx | hx
    · linarith
    · linarith [roundAway_of_nonneg hx]
  · intro hx
    obtain ⟨hlo, hhi⟩ := abs_le.mp (abs_sub_roundAway x)
    have hz : (roundAway x : REAL) < ((n + 1 : Int) : REAL) := by push_cast; linarith
    have hz' : roundAway x < n + 1 := by exact_mod_cast hz
    omega

/-- An average quantizes to a 9-bit code exactly within half a step of [0, 1] (R141). -/
theorem qa_mem_iff : (0 ≤ qa a ∧ qa a ≤ 511) ↔ (-1 / 1022 < a ∧ a < 1 + 1 / 1022) := by
  have hle : qa a ≤ 511 ↔ a * 511 < 511 + 1 / 2 := roundAway_le_iff (n := 511)
  have hnn : 0 ≤ qa a ↔ -1 / 2 < a * 511 := roundAway_nonneg_iff
  rw [hnn, hle]
  constructor
  · rintro ⟨h₀, h₁⟩
    constructor <;> linarith
  · rintro ⟨h₀, h₁⟩
    constructor <;> linarith

/-! ### The codes, and what they stand for -/

/-- The quantized difference is a value of 5 bits, so its pattern stands for it. -/
theorem toInt_ofInt_qd (x : REAL) : (BitVec.ofInt 5 (qd x)).toInt = qd x := by
  obtain ⟨hlo, hhi⟩ := qd_bounds x
  exact BitVec.toInt_ofInt_eq_self (by decide) (by omega) (by omega)

theorem toNat_ofInt_qa (ha₀ : 0 ≤ a) (ha₁ : a ≤ 1) : ((BitVec.ofInt 9 (qa a)).toNat : Int) = qa a := by
  obtain ⟨hlo, hhi⟩ := qa_bounds ha₀ ha₁
  rw [BitVec.toNat_ofInt]
  omega

theorem toInt_mem_five (code : BitVec 5) : -16 ≤ code.toInt ∧ code.toInt ≤ 15 := by
  have hlo := code.le_toInt
  have hhi := code.toInt_lt
  omega

/-- The clamp of DQD acts on −16 only (R144). -/
theorem dqd_eq (code : BitVec 5) : dqd code = if code.toInt = -16 then -3 / 10 else (code.toInt : REAL) / 50 := by
  split
  · rename_i hcode
    rw [dqd, hcode, clamp, if_pos (by norm_num)]
  · rename_i hcode
    obtain ⟨hlo, hhi⟩ := toInt_mem_five code
    have hlo' : ((-15 : Int) : REAL) ≤ (code.toInt : REAL) := by exact_mod_cast (by omega : -15 ≤ code.toInt)
    have hhi' : (code.toInt : REAL) ≤ ((15 : Int) : REAL) := by exact_mod_cast hhi
    push_cast at hlo' hhi'
    exact clamp_of_mem (by linarith) (by linarith)

/-- Dequantizing a quantized difference: QD never gives −16. -/
theorem dqd_qd (x : REAL) : dqd (BitVec.ofInt 5 (qd x)) = (qd x : REAL) / 50 := by
  have hb := qd_bounds x
  rw [dqd_eq, toInt_ofInt_qd, if_neg (by omega)]

theorem dqa_qa (ha₀ : 0 ≤ a) (ha₁ : a ≤ 1) : dqa (BitVec.ofInt 9 (qa a)) = (qa a : REAL) / 511 := by
  rw [dqa_eq, ← Int.cast_natCast, toNat_ofInt_qa ha₀ ha₁]

/-! ### The losses (R147) -/

/-- QA rounds, so it loses half a step at most. -/
theorem abs_qa_div_sub_le (a : REAL) : |(qa a : REAL) / 511 - a| ≤ 1 / 1022 := by
  obtain ⟨hlo, hhi⟩ := abs_le.mp (abs_sub_roundAway (a * 511))
  simp only [qa]
  rw [abs_le]
  constructor <;> linarith

theorem dqa_qa_error (ha₀ : 0 ≤ a) (ha₁ : a ≤ 1) : |dqa (BitVec.ofInt 9 (qa a)) - a| ≤ 1 / 1022 := by
  rw [dqa_qa ha₀ ha₁]
  exact abs_qa_div_sub_le a

/-- QD rounds what its clamp leaves, and the clamp leaves a value of its range as it is. -/
theorem dqd_qd_error (hx : |x| ≤ 3 / 10) : |dqd (BitVec.ofInt 5 (qd x)) - x| ≤ 1 / 100 := by
  obtain ⟨hx₀, hx₁⟩ := abs_le.mp hx
  have hclamp : clamp x (-3 / 10) (3 / 10) = x := clamp_of_mem (by linarith) hx₁
  obtain ⟨hlo, hhi⟩ := abs_le.mp (abs_sub_roundAway (x * 50))
  rw [dqd_qd, qd, hclamp, abs_le]
  constructor <;> linarith

theorem qd_of_gt (hx : 3 / 10 < x) : qd x = 15 := by
  have hclamp : clamp x (-3 / 10) (3 / 10) * 50 = ((15 : Int) : REAL) := by
    rw [clamp, if_neg (by linarith), if_pos hx]
    norm_num
  rw [qd, hclamp, roundAway_intCast]

theorem qd_of_lt (hx : x < -3 / 10) : qd x = -15 := by
  have hclamp : clamp x (-3 / 10) (3 / 10) * 50 = ((-15 : Int) : REAL) := by
    rw [clamp, if_pos hx]
    norm_num
  rw [qd, hclamp, roundAway_intCast]

/-- Beyond the clamp the loss is the excess. -/
theorem dqd_qd_excess (hx : 3 / 10 < |x|) : |dqd (BitVec.ofInt 5 (qd x)) - x| = |x| - 3 / 10 := by
  rw [dqd_qd]
  rcases lt_abs.mp hx with hx | hx
  · rw [qd_of_gt hx, abs_of_pos (by linarith : 0 < x), abs_of_neg (by push_cast; linarith)]
    push_cast
    ring
  · rw [qd_of_lt (by linarith), abs_of_neg (by linarith : x < 0), abs_of_pos (by push_cast; linarith)]
    push_cast
    ring

/-! ### The statements -/

theorem exec_qa (hr : running s (.real a)) : exec .qa s = .next (answered s (.int (qa a))) :=
  exec_eq_answered hr rfl

theorem exec_dqa {code : BitVec 9} (hr : running s (.u9 code)) : exec .dqa s = .next (answered s (.real (dqa code))) :=
  exec_eq_answered hr rfl

theorem exec_qd (hr : running s (.real x)) : exec .qd s = .next (answered s (.s5 (BitVec.ofInt 5 (qd x)))) :=
  exec_eq_answered hr rfl

theorem exec_dqd {code : BitVec 5} (hr : running s (.s5 code)) : exec .dqd s = .next (answered s (.real (dqd code))) :=
  exec_eq_answered hr rfl

theorem exec_dqch {i : Idx} (hr : running s (.idx i)) :
    exec .dqch s = .next (answered s (.real (s.params.chroma.table.ofIndex i))) :=
  exec_eq_answered hr rfl

/-- Settles O35: `qa` rounds by `roundAway`, and its range is `qa_mem_iff`. -/
theorem qaRoundsWithoutClamp : Obligations.QaRoundsWithoutClamp :=
  ⟨by decide, fun _ a hr => ⟨qa a, exec_qa hr, nearestAway_roundAway _, qa_mem_iff⟩⟩

/-- Settles O36: `dqa` is the limited quotient, which `dqa_eq` shows unlimited. -/
theorem dqaDividesAndClamps : Obligations.DqaDividesAndClamps := by
  refine ⟨by decide, fun s code hr => ?_, fun code => ?_⟩
  · rw [exec_dqa hr, dqa_eq_limited]
  · rw [← dqa_eq_limited, dqa_eq]

/-- Settles O37: `qd` rounds the clamped value, and its pattern stands for it (`toInt_ofInt_qd`). -/
theorem qdClampsThenRounds : Obligations.QdClampsThenRounds := by
  refine ⟨by decide, fun s x hr => ⟨_, exec_qd hr, ?_⟩⟩
  have hclamp : clamp x (-3 / 10) (3 / 10) = limited x (-3 / 10) (3 / 10) := clamp_eq_max_min (by norm_num)
  rw [toInt_ofInt_qd, ← hclamp]
  exact ⟨nearestAway_roundAway _, qd_bounds x⟩

/-- Settles O38: `dqd` is the limited quotient, which the limit changes for −16 only (`dqd_eq`). -/
theorem dqdDividesAndClamps : Obligations.DqdDividesAndClamps := by
  refine ⟨by decide, fun s code hr => ?_, fun code => ?_⟩
  · rw [exec_dqd hr, dqd_eq_limited]
  · rw [← dqd_eq_limited, dqd_eq]

/-- Settles O40: DQCH reads the table the CORE was built with, and has no error path. -/
theorem dqchLooksUpTheValue : Obligations.DqchLooksUpTheValue :=
  ⟨by decide, fun _ _ hr => exec_dqch hr⟩

/-- Settles O42: whatever CHROMA is bound, its table is lawful, so increasing from each index to the next and in the range at
each. -/
theorem chromaMonotonicInRange : Obligations.ChromaMonotonicInRange := fun ci =>
  ⟨fun _ _ => ofIndex_strictMono (table_lawful ci), ofIndex_mem (table_lawful ci)⟩

/-- Settles O43: the three losses, each proved above. -/
theorem quantizationLossBounds : Obligations.QuantizationLossBounds :=
  ⟨fun _ => dqa_qa_error, fun _ => dqd_qd_error, fun _ => dqd_qd_excess⟩

end Sys2Proof.Proofs
end

section
/-! The Bit-Field Codec's statements O44 to O49 (44_bitfield.md rules R161 to R168), over the rules for its four operations and
what a successful setter has inserted. -/

namespace Sys2Proof.Proofs

open Sys2Proof.Machine Sys2Proof.Claims

variable {s : State} {wd off : Nat} {v f r : Acc} {z : Int}

/-! ### The command word of format F -/

/-- The bytes of a format F word do not overlap, so joining them is or-ing them into place (R66). -/
theorem append_eq_formatF (op : BitVec 8) (hw : wd < 256) (ho : off < 256) :
    op ++ (0#8 ++ BitVec.ofNat 8 wd ++ BitVec.ofNat 8 off) = formatF (op.setWidth 32) wd off := by
  have hbit : ∀ {n k : Nat}, n < 256 → 8 ≤ k → n.testBit k = false := fun hn hk =>
    Nat.testBit_lt_two_pow (lt_of_lt_of_le hn (Nat.pow_le_pow_right (by norm_num : 2 > 0) hk))
  apply BitVec.eq_of_getLsbD_eq
  intro i hi
  simp only [formatF, BitVec.getLsbD_or, BitVec.getLsbD_shiftLeft, BitVec.getLsbD_append, BitVec.getLsbD_setWidth,
    BitVec.getLsbD_ofNat]
  by_cases h₁ : i < 8
  · simp [h₁, hi, show i < 24 by omega]
  · by_cases h₂ : i < 16
    · simp [h₁, hi, hbit ho (not_lt.mp h₁), show i < 24 by omega, show i - 8 < 8 by omega, show i - 8 < 32 by omega]
    · by_cases h₃ : i < 24
      · simp [h₁, hi, h₃, hbit ho (not_lt.mp h₁), hbit hw (show 8 ≤ i - 8 by omega), show ¬ (i - 8 < 8) by omega]
      · simp [h₁, hi, h₃, hbit ho (not_lt.mp h₁), hbit hw (show 8 ≤ i - 8 by omega), show i - 24 < 32 by omega]

theorem encode_getu (hw : wd < 256) (ho : off < 256) : encode (.getu wd off) = formatF 0x50#32 wd off :=
  append_eq_formatF 0x50#8 hw ho
theorem encode_gets (hw : wd < 256) (ho : off < 256) : encode (.gets wd off) = formatF 0x51#32 wd off :=
  append_eq_formatF 0x51#8 hw ho
theorem encode_setu (hw : wd < 256) (ho : off < 256) : encode (.setu wd off) = formatF 0x52#32 wd off :=
  append_eq_formatF 0x52#8 hw ho
theorem encode_sets (hw : wd < 256) (ho : off < 256) : encode (.sets wd off) = formatF 0x53#32 wd off :=
  append_eq_formatF 0x53#8 hw ho

/-! ### The four operations deliver what their functions compute, error statuses included -/

theorem exec_getu (hr : running s (.u64 v)) :
    exec (.getu wd off) s = .next (s.finish ((getu wd off v).map .u64)) :=
  exec_of_running hr rfl

theorem exec_gets (hr : running s (.u64 v)) :
    exec (.gets wd off) s = .next (s.finish ((gets wd off v).map .s64)) :=
  exec_of_running hr rfl

theorem exec_setu (hr : running s (.accU v f)) :
    exec (.setu wd off) s = .next (s.finish ((setu wd off v (f.toNat : Int)).map .u64)) :=
  exec_of_running hr rfl

theorem exec_sets (hr : running s (.accS v f)) :
    exec (.sets wd off) s = .next (s.finish ((sets wd off v f.toInt).map .u64)) :=
  exec_of_running hr rfl

theorem exec_getu_of_contract (hr : running s (.u64 v)) (hc : wd + off ≤ 64) :
    exec (.getu wd off) s = .next (answered s (.u64 (BitVec.ofNat 64 (fieldBits wd off v)))) := by
  rw [exec_getu hr, getu_of_contract hc]
  rfl

theorem exec_gets_of_contract (hr : running s (.u64 v)) (hc : wd + off ≤ 64) :
    exec (.gets wd off) s = .next (answered s (.s64 (BitVec.ofInt 64 (fieldSigned wd off v)))) := by
  rw [exec_gets hr, gets_of_contract hc]
  rfl

/-! ### The signed reading of a field -/

/-- A field of `wd` bits reads as a two's-complement value of `wd` bits: its top bit is what tells the two halves apart. -/
theorem fitss_fieldSigned (wd off : Nat) (v : Acc) : fitss (fieldSigned wd off v) wd = true := by
  have hlt := fieldBits_lt wd off v
  rcases Nat.eq_zero_or_pos wd with rfl | hw
  · have hz : fieldBits 0 off v = 0 := by simpa using hlt
    simp [fitss, fieldSigned, hz]
  · obtain ⟨n, rfl⟩ : ∃ n, wd = n + 1 := ⟨wd - 1, by omega⟩
    have hp : (2 : Int) ^ (n + 1) = 2 * 2 ^ n := by ring
    have hltI : ((fieldBits (n + 1) off v : Nat) : Int) < 2 ^ (n + 1) := by exact_mod_cast hlt
    rw [fitss_iff_of_pos hw, Nat.add_sub_cancel]
    by_cases hbit : (fieldBits (n + 1) off v).testBit n = true
    · have hge : (2 : Int) ^ n ≤ (fieldBits (n + 1) off v : Nat) := by
        exact_mod_cast Nat.ge_two_pow_of_testBit hbit
      have hs : fieldSigned (n + 1) off v = (fieldBits (n + 1) off v : Nat) - 2 ^ (n + 1) := if_pos ⟨hw, hbit⟩
      rw [hs]
      constructor <;> linarith
    · have hlow : fieldBits (n + 1) off v < 2 ^ n := by
        refine Nat.lt_pow_two_of_testBit _ fun i hi => ?_
        rcases Nat.eq_or_lt_of_le hi with rfl | hi
        · exact Bool.eq_false_iff.mpr hbit
        · exact Nat.testBit_lt_two_pow (hlt.trans_le (Nat.pow_le_pow_right (by norm_num) hi))
      have hlowI : ((fieldBits (n + 1) off v : Nat) : Int) < 2 ^ n := by exact_mod_cast hlow
      have hs : fieldSigned (n + 1) off v = (fieldBits (n + 1) off v : Nat) := if_neg fun h => hbit h.2
      have hpos : (0 : Int) ≤ (fieldBits (n + 1) off v : Nat) := Int.natCast_nonneg _
      rw [hs]
      constructor <;> linarith

theorem fitss_iff_fitsField : fitss z wd = true ↔ fitsField wd z := by
  unfold fitss fitsField
  split <;> simp

/-- A value of a field of at most 64 bits is a value of 64 bits, so its pattern stands for it. -/
theorem toInt_ofInt_of_fitss (hf : fitss z wd = true) (hw : wd ≤ 64) : (BitVec.ofInt 64 z).toInt = z := by
  rcases Nat.eq_zero_or_pos wd with rfl | hpos
  · have hz : z = 0 := by simpa [fitss] using hf
    rw [hz]
    decide
  · obtain ⟨hlo, hhi⟩ := (fitss_iff_of_pos hpos).mp hf
    have hp : (2 : Int) ^ (wd - 1) ≤ 2 ^ 63 := pow_le_pow_right₀ (by norm_num) (by omega)
    exact BitVec.toInt_ofInt_eq_self (by norm_num) (by norm_num; linarith) (by norm_num; linarith)

/-- The signed reading, with the top bit of the field taken from the accumulator (R165). -/
theorem fieldSigned_eq (wd off : Nat) (v : Acc) :
    fieldSigned wd off v = if 1 ≤ wd ∧ v.getLsbD (off + wd - 1) = true then
      ((v.toNat / 2 ^ off % 2 ^ wd : Nat) : Int) - 2 ^ wd else ((v.toNat / 2 ^ off % 2 ^ wd : Nat) : Int) := by
  have htop : (1 ≤ wd ∧ (fieldBits wd off v).testBit (wd - 1) = true) ↔ (1 ≤ wd ∧ v.getLsbD (off + wd - 1) = true) := by
    refine and_congr_right fun hw => ?_
    rw [testBit_fieldBits, Nat.add_sub_assoc hw]
    simp [Nat.sub_lt hw Nat.one_pos]
  simp only [fieldSigned]
  rw [if_congr htop rfl rfl, fieldBits_eq]

/-! ### What a successful setter has inserted -/

theorem finish_eq_answered {x : Except Error Payload} {p : Payload} (h : s.finish x = answered s p) : x = .ok p := by
  have hresp := congrArg State.responses h
  rw [finish_responses] at hresp
  cases x with
  | ok q => simpa [answered] using hresp
  | error e => simp [answered] at hresp

theorem setu_eq_ok (hok : setu wd off v z = .ok r) : fitsu z wd = true ∧ r = insertBits wd off v z.toNat := by
  unfold setu at hok
  split at hok
  · split at hok <;> cases hok
    exact ⟨‹_›, rfl⟩
  · cases hok

theorem sets_eq_ok (hok : sets wd off v z = .ok r) :
    fitss z wd = true ∧ r = insertBits wd off v (z % 2 ^ wd).toNat := by
  unfold sets at hok
  split at hok
  · split at hok <;> cases hok
    exact ⟨‹_›, rfl⟩
  · cases hok

theorem inserted_of_exec_setu (hr : running s (.accU v f))
    (hx : exec (.setu wd off) s = .next (answered s (.u64 r))) : f.toNat < 2 ^ wd ∧ r = insertBits wd off v f.toNat := by
  rw [exec_setu hr] at hx
  injection hx with hx
  obtain ⟨r', hok, hr'⟩ := map_eq_ok_iff.mp (finish_eq_answered hx)
  cases hr'
  obtain ⟨hf, hins⟩ := setu_eq_ok hok
  exact ⟨toNat_lt_of_fitsu hf, hins⟩

theorem inserted_of_exec_sets (hr : running s (.accS v f))
    (hx : exec (.sets wd off) s = .next (answered s (.u64 r))) :
    fitss f.toInt wd = true ∧ r = insertBits wd off v (f.toInt % 2 ^ wd).toNat := by
  rw [exec_sets hr] at hx
  injection hx with hx
  obtain ⟨r', hok, hr'⟩ := map_eq_ok_iff.mp (finish_eq_answered hx)
  cases hr'
  exact sets_eq_ok hok

/-- The low `wd` bits of a signed number are those of its pattern. -/
theorem toInt_emod_two_pow (f : BitVec 64) (hw : wd ≤ 64) : (f.toInt % 2 ^ wd).toNat = f.toNat % 2 ^ wd := by
  have hdvd : (2 : Int) ^ wd ∣ (f.toNat : Int) - f.toInt := by
    rw [BitVec.toInt_eq_toNat_bmod]
    exact (pow_dvd_pow 2 hw).trans Int.dvd_self_sub_bmod
  have hmod : f.toInt % 2 ^ wd = ((f.toNat % 2 ^ wd : Nat) : Int) := by
    rw [Int.modEq_iff_dvd.mpr hdvd]
    norm_cast
  rw [hmod, Int.toNat_natCast]

/-! ### The statements -/

/-- Settles O44: within the contract `getu` is the field's bits (`fieldBits_eq`). -/
theorem getuExtractsUnsigned : Obligations.GetuExtractsUnsigned := by
  refine fun wd off => ⟨encode_getu, fun s v hr => ⟨fun hc => ?_, fun hc => ?_⟩⟩
  · rw [exec_getu_of_contract hr hc, fieldBits_eq]
  · rw [exec_getu hr, getu_of_not_contract hc]
    rfl

/-- Settles O45: within the contract `gets` is the signed reading of the field (`fieldSigned_eq`), a value of 64 bits. -/
theorem getsExtractsSigned : Obligations.GetsExtractsSigned := by
  refine fun wd off => ⟨encode_gets, fun s v hr => ⟨fun hc => ⟨_, exec_gets_of_contract hr hc, ?_⟩, fun hc => ?_⟩⟩
  · rw [toInt_ofInt_of_fitss (fitss_fieldSigned wd off v) (by omega), fieldSigned_eq]
  · rw [exec_gets hr, gets_of_not_contract hc]
    rfl

/-- Settles O46: the three cases of `setu`, and the bits of an insertion (`getLsbD_insertBits`). -/
theorem setuInsertsUnsigned : Obligations.SetuInsertsUnsigned := by
  refine fun wd off => ⟨encode_setu, fun s v f hr => ⟨fun hc => ?_, fun hc hf => ?_, fun hc hf => ?_⟩⟩
  · rw [exec_setu hr, setu_of_not_contract hc]
    rfl
  · have hnf : fitsu (f.toNat : Int) wd = false := by
      rw [← Bool.not_eq_true, fitsu_iff]
      exact fun h => absurd h.2 (not_lt.mpr (by exact_mod_cast hf))
    rw [exec_setu hr, setu_of_not_fits hc hnf]
    rfl
  · have hfit : fitsu (f.toNat : Int) wd = true := fitsu_iff.mpr ⟨Int.natCast_nonneg _, by exact_mod_cast hf⟩
    refine ⟨insertBits wd off v f.toNat, ?_, fun k hk => ?_⟩
    · rw [exec_setu hr, setu_of_fits hc hfit]
      rfl
    · rw [getLsbD_insertBits hf hk, BitVec.testBit_toNat]

/-- Settles O47: the three cases of `sets`, and the bits of an insertion, of which those in the field are the low bits of the
operand (`toInt_emod_two_pow`). -/
theorem setsInsertsSigned : Obligations.SetsInsertsSigned := by
  refine fun wd off => ⟨encode_sets, fun s v f hr => ⟨fun hc => ?_, fun hc hf => ?_, fun hc hf => ?_⟩⟩
  · rw [exec_sets hr, sets_of_not_contract hc]
    rfl
  · rw [← fitss_iff_fitsField, Bool.not_eq_true] at hf
    rw [exec_sets hr, sets_of_not_fits hc hf]
    rfl
  · rw [← fitss_iff_fitsField] at hf
    refine ⟨insertBits wd off v (f.toInt % 2 ^ wd).toNat, ?_, fun k hk => ?_⟩
    · rw [exec_sets hr, sets_of_fits hc hf]
      rfl
    · rw [getLsbD_insertBits (emod_toNat_lt _ _) hk]
      refine if_ctx_congr Iff.rfl (fun hin => ?_) fun _ => rfl
      rw [toInt_emod_two_pow f (by omega), Nat.testBit_mod_two_pow, BitVec.testBit_toNat,
        decide_eq_true (by omega : k - off < wd), Bool.true_and]

/-- Settles O48: the getters read what the setters inserted (`fieldBits_insertBits`, `fieldSigned_insertBits`). -/
theorem getAfterSet : Obligations.GetAfterSet := by
  refine fun s₁ s₂ wd off v f r hc hr₂ => ⟨fun hr₁ hx => ?_, fun hr₁ hx => ?_⟩
  · obtain ⟨hf, rfl⟩ := inserted_of_exec_setu hr₁ hx
    rw [exec_getu_of_contract hr₂ hc, fieldBits_insertBits hf hc, BitVec.ofNat_toNat, BitVec.setWidth_eq]
  · obtain ⟨hf, rfl⟩ := inserted_of_exec_sets hr₁ hx
    constructor
    · rw [exec_gets_of_contract hr₂ hc, fieldSigned_insertBits hf hc, BitVec.ofInt_toInt]
    · have hnn : 0 ≤ f.toInt % 2 ^ wd := Int.emod_nonneg _ (by positivity)
      rw [exec_getu_of_contract hr₂ hc, fieldBits_insertBits (emod_toNat_lt _ _) hc, ← BitVec.ofInt_natCast,
        Int.toNat_of_nonneg hnn]

/-- Settles O49: either setter has inserted a value of the width, which no disjoint field meets
(`fieldBits_insertBits_of_disjoint`). -/
theorem setLeavesDisjointFields : Obligations.SetLeavesDisjointFields := by
  intro s₁ s₂ s₃ wd off wd₂ off₂ v f r hc₂ hdis hr₂ hr₃ hset
  obtain ⟨u, hu, rfl⟩ : ∃ u < 2 ^ wd, r = insertBits wd off v u := by
    rcases hset with ⟨hr₁, hx⟩ | ⟨hr₁, hx⟩
    · exact ⟨_, inserted_of_exec_setu hr₁ hx⟩
    · exact ⟨_, emod_toNat_lt _ _, (inserted_of_exec_sets hr₁ hx).2⟩
  refine ⟨_, exec_getu_of_contract hr₂ hc₂, ?_⟩
  rw [exec_getu_of_contract hr₃ hc₂, fieldBits_insertBits_of_disjoint hu hc₂ hdis]

end Sys2Proof.Proofs
end

section
/-! The Word Packer's statements O50, O54 and O55 (45_word_packer.md rules R181, R185), over what the six slices of a packed word
are. -/

namespace Sys2Proof.Proofs

open Sys2Proof.Machine Sys2Proof.Claims

variable {s : State} {c : ChromaTable} {blk : Block} {w : Codeword} {wd off : Nat}

/-! ### The slices of a Codeword -/

/-- A slice of the low word of an accumulator is the field there. -/
theorem extractLsb'_low (acc : Acc) (h : wd + off ≤ 32) :
    (acc.extractLsb' 0 32).extractLsb' off wd = BitVec.ofNat wd (fieldBits wd off acc) := by
  rw [← ofNat_fieldBits _ h, fieldBits_low (by omega)]

theorem fieldBits_eq_toNat (w : Codeword) (h : wd + off ≤ 32) :
    fieldBits wd off (w.setWidth 64) = (w.extractLsb' off wd).toNat := by
  rw [← ofNat_fieldBits w h, BitVec.toNat_ofNat, Nat.mod_eq_of_lt (fieldBits_lt _ _ _)]

/-- A Codeword is its six slices, which cover all 32 bits (R60, R61). -/
theorem codeword_eq_slices (w : Codeword) :
    w.toNat = (w.extractLsb' 23 9).toNat * 2 ^ 23 + (w.extractLsb' 18 5).toNat * 2 ^ 18 +
      (w.extractLsb' 13 5).toNat * 2 ^ 13 + (w.extractLsb' 8 5).toNat * 2 ^ 8 +
      (w.extractLsb' 4 4).toNat * 2 ^ 4 + (w.extractLsb' 0 4).toNat := by
  rw [codeword_eq_fields, fieldBits_eq_toNat w (by norm_num), fieldBits_eq_toNat w (by norm_num),
    fieldBits_eq_toNat w (by norm_num), fieldBits_eq_toNat w (by norm_num), fieldBits_eq_toNat w (by norm_num),
    fieldBits_eq_toNat w (by norm_num)]

/-- The chroma byte of a word is its two index slices. -/
theorem chroma_byte_eq (w : Codeword) : w.extractLsb' 0 8 = w.extractLsb' 4 4 ++ w.extractLsb' 0 4 := by
  apply BitVec.eq_of_getLsbD_eq
  intro i hi
  simp only [BitVec.getLsbD_append, BitVec.getLsbD_extractLsb']
  by_cases h : i < 4
  · simp [h, hi]
  · simp [h, hi, show i - 4 < 4 by omega, show 4 + (i - 4) = i by omega]

/-- The pattern of a signed field is its value modulo the field's size (R62). -/
theorem ofNat_emod_two_pow (z : Int) : BitVec.ofNat wd (z % 2 ^ wd).toNat = BitVec.ofInt wd z := by
  have hnn : 0 ≤ z % 2 ^ wd := Int.emod_nonneg _ (by positivity)
  apply BitVec.eq_of_toNat_eq
  rw [BitVec.toNat_ofNat, BitVec.toNat_ofInt, Nat.mod_eq_of_lt (emod_toNat_lt z wd)]
  norm_cast

/-! ### The slices of a packed word -/

/-- The six slices of a word are the quantized coefficients and the palette indices of a Block (R60, R181). -/
structure PackedFields (c : ChromaTable) (blk : Block) (w : Codeword) : Prop where
  avg : w.extractLsb' 23 9 = BitVec.ofInt 9 (qa (btFwd (lumas blk)).a)
  detB : w.extractLsb' 18 5 = BitVec.ofInt 5 (qd (btFwd (lumas blk)).b)
  detC : w.extractLsb' 13 5 = BitVec.ofInt 5 (qd (btFwd (lumas blk)).c)
  detD : w.extractLsb' 8 5 = BitVec.ofInt 5 (qd (btFwd (lumas blk)).d)
  pbIdx : w.extractLsb' 4 4 = qch c (pbs blk)
  prIdx : w.extractLsb' 0 4 = qch c (prs blk)

/-- PACK of a Block whose average fits its code lays out the six fields (R181). -/
theorem pack_ok_of_avg (ha : 0 ≤ qa (btFwd (lumas blk)).a ∧ qa (btFwd (lumas blk)).a ≤ 511) :
    ∃ w, pack c blk = .ok w ∧ PackedFields c blk w := by
  obtain ⟨ha₀, ha₁⟩ := ha
  obtain ⟨hA, hB, hC, hD, hpb, hpr⟩ := packAcc_fields (A := (qa (btFwd (lumas blk)).a).toNat)
    (B := qd (btFwd (lumas blk)).b) (C := qd (btFwd (lumas blk)).c) (D := qd (btFwd (lumas blk)).d)
    (pbi := qch c (pbs blk)) (pri := qch c (prs blk)) (by omega)
  refine ⟨_, by rw [pack_eq, if_pos ⟨ha₀, ha₁⟩], ?_, ?_, ?_, ?_, ?_, ?_⟩
  · rw [extractLsb'_low _ (by norm_num), hA, ← BitVec.ofInt_natCast, Int.toNat_of_nonneg ha₀]
  · rw [extractLsb'_low _ (by norm_num), hB, ofNat_emod_two_pow]
  · rw [extractLsb'_low _ (by norm_num), hC, ofNat_emod_two_pow]
  · rw [extractLsb'_low _ (by norm_num), hD, ofNat_emod_two_pow]
  · rw [extractLsb'_low _ (by norm_num), hpb, BitVec.ofNat_toNat, BitVec.setWidth_eq]
  · rw [extractLsb'_low _ (by norm_num), hpr, BitVec.ofNat_toNat, BitVec.setWidth_eq]

theorem pack_of_not_avg (ha : ¬ (0 ≤ qa (btFwd (lumas blk)).a ∧ qa (btFwd (lumas blk)).a ≤ 511)) :
    pack c blk = .error .fieldOverflow := by
  rw [pack_eq, if_neg ha]

/-- PACK delivers what `pack` computes, its error status included. -/
theorem exec_pack (hr : running s (.block blk)) :
    exec .pack s = .next (s.finish ((pack s.params.chroma.table blk).map .codeword)) :=
  exec_of_running hr rfl

theorem exec_pack_of_eq_ok (hr : running s (.block blk)) (hp : pack s.params.chroma.table blk = .ok w) :
    exec .pack s = .next (answered s (.codeword w)) := by
  rw [exec_pack hr, hp]
  rfl

theorem toNat_ofInt_five (z : Int) : ((BitVec.ofInt 5 z).toNat : Int) = z % 32 := by
  rw [BitVec.toNat_ofInt, Int.toNat_of_nonneg (Int.emod_nonneg _ (by norm_num))]
  norm_num

/-- The value of a packed word, field by field (R60). -/
theorem toNat_of_packedFields (hw : PackedFields c blk w)
    (ha : 0 ≤ qa (btFwd (lumas blk)).a ∧ qa (btFwd (lumas blk)).a ≤ 511) :
    (w.toNat : Int) = qa (btFwd (lumas blk)).a * 2 ^ 23 + qd (btFwd (lumas blk)).b % 32 * 2 ^ 18 +
      qd (btFwd (lumas blk)).c % 32 * 2 ^ 13 + qd (btFwd (lumas blk)).d % 32 * 2 ^ 8 +
      ((qch c (pbs blk)).toNat * 2 ^ 4 + (qch c (prs blk)).toNat : Nat) := by
  have havg : ((BitVec.ofInt 9 (qa (btFwd (lumas blk)).a)).toNat : Int) = qa (btFwd (lumas blk)).a := by
    rw [BitVec.toNat_ofInt]
    omega
  rw [codeword_eq_slices, hw.avg, hw.detB, hw.detC, hw.detD, hw.pbIdx, hw.prIdx]
  push_cast
  rw [havg, toNat_ofInt_five, toNat_ofInt_five, toNat_ofInt_five]
  ring

/-- Settles O50: PACK fails exactly where the average does not fit (`qa_mem_iff`), and else lays out the six fields. -/
theorem packLaysOutTheCodeword : Obligations.PackLaysOutTheCodeword := by
  refine ⟨by decide, ?_⟩
  rintro s blk a bb cc dd mpb mpr hr rfl rfl rfl rfl rfl rfl
  have hiff := qa_mem_iff (a := (btFwd (lumas blk)).a)
  refine ⟨fun hout => ?_, fun ha₀ ha₁ => ?_⟩
  · have hna : ¬ (0 ≤ qa (btFwd (lumas blk)).a ∧ qa (btFwd (lumas blk)).a ≤ 511) := fun ha => by
      obtain ⟨ha₀, ha₁⟩ := hiff.mp ha
      rcases hout with h | h
      · exact absurd ha₀ (not_lt.mpr h)
      · exact absurd ha₁ (not_lt.mpr h)
    rw [exec_pack hr, pack_of_not_avg hna]
    rfl
  · have ha := hiff.mpr ⟨ha₀, ha₁⟩
    obtain ⟨w, hp, hw⟩ := pack_ok_of_avg (c := s.params.chroma.table) ha
    exact ⟨w, exec_pack_of_eq_ok hr hp, toNat_of_packedFields hw ha⟩

/-! ### PACK after UNPACK -/

/-- The lumas of an unpacked word are the inverse transform of its dequantized slices (R182). -/
theorem lumas_unpack (c : ChromaTable) (w : Codeword) : lumas (unpack c w) =
    btInv ⟨dqa (w.extractLsb' 23 9), dqd (w.extractLsb' 18 5), dqd (w.extractLsb' 13 5), dqd (w.extractLsb' 8 5)⟩ := by
  rw [unpack_eq]
  rfl

/-- The coefficients of an unpacked word are its dequantized slices: the transform is undone (R132, R182). -/
theorem btFwd_lumas_unpack (c : ChromaTable) (w : Codeword) : btFwd (lumas (unpack c w)) =
    ⟨dqa (w.extractLsb' 23 9), dqd (w.extractLsb' 18 5), dqd (w.extractLsb' 13 5), dqd (w.extractLsb' 8 5)⟩ := by
  rw [lumas_unpack, btFwd_btInv]

/-- The four pixels of an unpacked word share one chroma pair, so each mean is it and indexes back to its slice (R151). -/
theorem qch_unpack (hc : lawful c = true) (w : Codeword) :
    qch c (pbs (unpack c w)) = w.extractLsb' 4 4 ∧ qch c (prs (unpack c w)) = w.extractLsb' 0 4 := by
  rw [unpack_eq]
  simp only [pbs, prs, qch_const, indexOf_ofIndex hc, and_self]

/-- Quantizing a dequantized detail slice gives it back, −16 excepted (R185). -/
theorem toInt_qd_dqd (code : BitVec 5) :
    (BitVec.ofInt 5 (qd (dqd code))).toInt = if code.toInt = -16 then -15 else code.toInt := by
  rw [toInt_ofInt_qd, qd_dqd]

/-- Settles O54: PACK quantizes the dequantized slices of the word, and indexes its palette values. -/
theorem packAfterUnpack : Obligations.PackAfterUnpack := by
  intro s₁ s₂ w hchroma hr
  have hlaw := table_lawful s₂.params.chroma
  have ht := btFwd_lumas_unpack s₂.params.chroma.table w
  have hqa : qa (btFwd (lumas (unpack s₂.params.chroma.table w))).a = ((w.extractLsb' 23 9).toNat : Int) := by
    rw [ht, qa_dqa]
  have ha : 0 ≤ qa (btFwd (lumas (unpack s₂.params.chroma.table w))).a ∧
      qa (btFwd (lumas (unpack s₂.params.chroma.table w))).a ≤ 511 := by
    have hlt := (w.extractLsb' 23 9).isLt
    rw [hqa]
    omega
  obtain ⟨w', hp, hw⟩ := pack_ok_of_avg (c := s₂.params.chroma.table) ha
  obtain ⟨hpb, hpr⟩ := qch_unpack hlaw w
  refine ⟨unpack s₂.params.chroma.table w, w', ?_, fun hr₂ => exec_pack_of_eq_ok hr₂ hp, ?_, ?_, ?_⟩
  · rw [exec_unpack hr, hchroma]
  · rw [hw.avg, hqa, BitVec.ofInt_natCast, BitVec.ofNat_toNat, BitVec.setWidth_eq]
  · simp only [List.forall_mem_cons]
    refine ⟨?_, ?_, ?_, List.forall_mem_nil _⟩
    · rw [hw.detB, ht, toInt_qd_dqd]
    · rw [hw.detC, ht, toInt_qd_dqd]
    · rw [hw.detD, ht, toInt_qd_dqd]
  · rw [chroma_byte_eq, hw.pbIdx, hw.prIdx, hpb, hpr, ← chroma_byte_eq]

/-! ### UNPACK after PACK -/

/-- The error of each luma is at most the sum of the errors of the four coefficients it is made of (R131). -/
theorem btInv_error {t t' : TransformedBlock} {δ ε : REAL} (ha : |t'.a - t.a| ≤ δ) (hb : |t'.b - t.b| ≤ ε)
    (hc : |t'.c - t.c| ≤ ε) (hd : |t'.d - t.d| ≤ ε) :
    |(btInv t').v1 - (btInv t).v1| ≤ δ + 3 * ε ∧ |(btInv t').v2 - (btInv t).v2| ≤ δ + 3 * ε ∧
      |(btInv t').v3 - (btInv t).v3| ≤ δ + 3 * ε ∧ |(btInv t').v4 - (btInv t).v4| ≤ δ + 3 * ε := by
  simp only [abs_le] at ha hb hc hd
  obtain ⟨ha₀, ha₁⟩ := ha
  obtain ⟨hb₀, hb₁⟩ := hb
  obtain ⟨hc₀, hc₁⟩ := hc
  obtain ⟨hd₀, hd₁⟩ := hd
  simp only [btInv, abs_le]
  refine ⟨⟨?_, ?_⟩, ⟨?_, ?_⟩, ⟨?_, ?_⟩, ⟨?_, ?_⟩⟩ <;> linarith

/-- Settles O55: each coefficient comes back within its quantizer's loss, and a luma is a signed sum of the four. -/
theorem packedLumaErrorBound : Obligations.PackedLumaErrorBound := by
  intro s₁ s₂ x t hr ht hy hb hc hd
  change t = btFwd (lumas x) at ht
  subst ht
  simp only [List.forall_mem_cons] at hy
  obtain ⟨⟨h₁, h₁'⟩, ⟨h₂, h₂'⟩, ⟨h₃, h₃'⟩, ⟨h₄, h₄'⟩, -⟩ := hy
  have ha₀ : 0 ≤ (btFwd (lumas x)).a := by simp only [btFwd, lumas]; linarith
  have ha₁ : (btFwd (lumas x)).a ≤ 1 := by simp only [btFwd, lumas]; linarith
  obtain ⟨w, hp, hw⟩ := pack_ok_of_avg (c := s₁.params.chroma.table) (qa_bounds ha₀ ha₁)
  refine ⟨w, exec_pack_of_eq_ok hr hp, fun hr₂ => ⟨_, exec_unpack hr₂, ?_⟩⟩
  have hea : |dqa (w.extractLsb' 23 9) - (btFwd (lumas x)).a| ≤ 1 / 1022 := hw.avg ▸ dqa_qa_error ha₀ ha₁
  have heb : |dqd (w.extractLsb' 18 5) - (btFwd (lumas x)).b| ≤ 1 / 100 := hw.detB ▸ dqd_qd_error hb
  have hec : |dqd (w.extractLsb' 13 5) - (btFwd (lumas x)).c| ≤ 1 / 100 := hw.detC ▸ dqd_qd_error hc
  have hed : |dqd (w.extractLsb' 8 5) - (btFwd (lumas x)).d| ≤ 1 / 100 := hw.detD ▸ dqd_qd_error hd
  have herr := btInv_error (t := btFwd (lumas x)) (t' := ⟨dqa (w.extractLsb' 23 9), dqd (w.extractLsb' 18 5),
    dqd (w.extractLsb' 13 5), dqd (w.extractLsb' 8 5)⟩) hea heb hec hed
  have hconst : (1 / 1022 + 3 / 100 : REAL) = 1 / 1022 + 3 * (1 / 100) := by norm_num
  rw [btInv_btFwd, ← lumas_unpack s₂.params.chroma.table, ← hconst] at herr
  exact herr

end Sys2Proof.Proofs
end

section
/-! The pipeline's statements O56 to O60, and O18 on the output port (46_pipeline.md rules R200 to R210, 40_color_converter.md rule
R98), over the rules for ENCODE and DECODE and the four bytes of a word. -/

namespace Sys2Proof.Proofs

open Sys2Proof.Machine Sys2Proof.Claims

variable {s : State} {c : ChromaTable} {w h : Nat} {st : List Byte}

/-! ### ENCODE -/

/-- ENCODE delivers what `encodeImage` computes, its error status included. -/
theorem exec_encode {px : List RgbIn} (hr : running s (.raster (.rgbIn px) w h)) :
    exec .encode s = .next (s.finish
      ((encodeImage s.params.chroma.table px w h).map fun out => .stream out.1 out.2.1 out.2.2)) :=
  exec_of_running hr rfl

theorem exec_encode_of_eq_ok {px : List RgbIn} {W H : Nat} (hr : running s (.raster (.rgbIn px) w h))
    (he : encodeImage s.params.chroma.table px w h = .ok (st, W, H)) :
    exec .encode s = .next (answered s (.stream st W H)) := by
  rw [exec_encode hr, he]
  rfl

/-- Settles O56: `encodeImage_spec`, with the bytes of each word (`getElem?_streamOf`). -/
theorem encodeImageStream : Obligations.EncodeImageStream := by
  refine ⟨by decide, fun s px w h hr => ⟨fun hl => ?_, fun hl => ?_⟩⟩
  · rw [exec_encode hr, encodeImage_of_ne hl]
    rfl
  · obtain ⟨ws, he, hwl, hws⟩ := encodeImage_spec s.params.chroma.table hl
    refine ⟨streamOf ws, exec_encode_of_eq_ok hr he, by rw [length_streamOf, hwl], fun bi bj hi hj => ?_⟩
    obtain ⟨p1, p2, p3, p4, word, h₁, h₂, h₃, h₄, hp, hword⟩ := hws bi hi bj hj
    exact ⟨_, word, ⟨p1, p2, p3, p4, h₁, h₂, h₃, h₄, rfl⟩, hp, getElem?_streamOf ws _ word hword⟩

/-- CROP sees nothing of a raster beyond its even part (R112). -/
theorem crop_congr {α : Type} {p q : List α} (hp : p.length = w * h) (hq : q.length = w * h)
    (heq : ∀ i j, i < evenTrunc h → j < evenTrunc w → p[i * w + j]? = q[i * w + j]?) : crop p w h = crop q w h := by
  obtain ⟨p', hcp, hpl, hp'⟩ := crop_spec hp
  obtain ⟨q', hcq, hql, hq'⟩ := crop_spec hq
  have hpq : p' = q' := raster_ext hpl hql fun i hi j hj => by rw [hp' i hi j hj, hq' i hi j hj, heq i j hi hj]
  rw [hcp, hcq, hpq]

/-- ENCODE sees of an image only what CROP keeps of it (R200). -/
theorem encodeImage_congr {p q : List RgbIn} (heq : crop p w h = crop q w h) :
    encodeImage c p w h = encodeImage c q w h := by
  rw [encodeImage, heq, ← encodeImage]

/-- Settles O57: the two images have the same even part, so they are cropped and so encoded alike. -/
theorem droppedPixelsDoNotMatter : Obligations.DroppedPixelsDoNotMatter := by
  intro s₁ s₂ p q w h hchroma hp hq heq hr₁ hr₂
  obtain ⟨ws, hep, -⟩ := encodeImage_spec s₁.params.chroma.table hp
  have heq' : encodeImage s₂.params.chroma.table q w h = .ok (streamOf ws, evenTrunc w, evenTrunc h) := by
    rw [← hchroma, ← encodeImage_congr (crop_congr hp hq heq), hep]
  exact ⟨streamOf ws, exec_encode_of_eq_ok hr₁ hep, exec_encode_of_eq_ok hr₂ heq'⟩

/-! ### The uniform red image (R210) -/

/-- The ChromaPixel of red. -/
def redChroma : ChromaPixel := ⟨299 / 1000, -(168736 / 1000000), 1 / 2⟩

theorem rgb2ypp_red : rgb2ypp ⟨255, 0, 0⟩ = redChroma := by decide +kernel

/-- A uniform Block has no detail (R130). -/
theorem btFwd_const (y : REAL) : btFwd ⟨y, y, y, y⟩ = ⟨y, 0, 0, 0⟩ := by
  simp only [btFwd, TransformedBlock.mk.injEq]
  refine ⟨?_, ?_, ?_, ?_⟩ <;> ring

theorem btInv_const (y : REAL) : btInv ⟨y, 0, 0, 0⟩ = ⟨y, y, y, y⟩ := by
  simp [btInv]

theorem qa_red : qa (299 / 1000) = 153 :=
  roundAway_eq_of_nonneg (by norm_num) (by norm_num) (by norm_num)

theorem qd_zero : qd 0 = 0 := by decide +kernel
theorem dqd_zero : dqd 0#5 = 0 := by decide +kernel

/-- PACK of the uniform red Block: the average 153, no detail, and the two indices of red. -/
theorem pack_red (c : ChromaTable) :
    ∃ w, pack c ⟨redChroma, redChroma, redChroma, redChroma⟩ = .ok w ∧
      w.extractLsb' 18 5 = 0#5 ∧ w.extractLsb' 13 5 = 0#5 ∧ w.extractLsb' 8 5 = 0#5 ∧
      w.toNat = 153 * 2 ^ 23 + (c.indexOf (-(168736 / 1000000))).toNat * 2 ^ 4 + (c.indexOf (1 / 2)).toNat := by
  have ht : btFwd (lumas ⟨redChroma, redChroma, redChroma, redChroma⟩) = ⟨299 / 1000, 0, 0, 0⟩ := btFwd_const _
  have hpb : qch c (pbs ⟨redChroma, redChroma, redChroma, redChroma⟩) = c.indexOf (-(168736 / 1000000)) := qch_const c _
  have hpr : qch c (prs ⟨redChroma, redChroma, redChroma, redChroma⟩) = c.indexOf (1 / 2) := qch_const c _
  have hqa : qa (btFwd (lumas ⟨redChroma, redChroma, redChroma, redChroma⟩)).a = 153 := by rw [ht, qa_red]
  obtain ⟨w, hp, hw⟩ := pack_ok_of_avg (c := c) (blk := ⟨redChroma, redChroma, redChroma, redChroma⟩)
    (by rw [hqa]; decide)
  have hB : w.extractLsb' 18 5 = 0#5 := by rw [hw.detB, ht, qd_zero]; rfl
  have hC : w.extractLsb' 13 5 = 0#5 := by rw [hw.detC, ht, qd_zero]; rfl
  have hD : w.extractLsb' 8 5 = 0#5 := by rw [hw.detD, ht, qd_zero]; rfl
  have hA : (w.extractLsb' 23 9).toNat = 153 := by rw [hw.avg, hqa]; decide
  refine ⟨w, hp, hB, hC, hD, ?_⟩
  rw [codeword_eq_slices, hA, hB, hC, hD, hw.pbIdx, hw.prIdx, hpb, hpr]
  rfl

/-- A word without detail decodes to a uniform Block. -/
theorem unpack_of_no_detail {word : Codeword} (hB : word.extractLsb' 18 5 = 0#5) (hC : word.extractLsb' 13 5 = 0#5)
    (hD : word.extractLsb' 8 5 = 0#5) (c : ChromaTable) : ∃ q, unpack c word = ⟨q, q, q, q⟩ := by
  rw [unpack_eq, hB, hC, hD, dqd_zero, btInv_const]
  exact ⟨_, rfl⟩

/-- Settles O58: the even part is one Block, of four red pixels, and its word is that of `pack_red`. -/
theorem uniformRedScenario : Obligations.UniformRedScenario := by
  rintro s₁ s₂ pbi pri w hr rfl rfl hw
  obtain ⟨ws, he, hwl, hws⟩ := encodeImage_spec s₁.params.chroma.table (w := 2) (h := 2)
    (px := [⟨255, 0, 0⟩, ⟨255, 0, 0⟩, ⟨255, 0, 0⟩, ⟨255, 0, 0⟩]) rfl
  obtain ⟨p1, p2, p3, p4, word, h₁, h₂, h₃, h₄, hp, hword⟩ := hws 0 (by decide) 0 (by decide)
  cases h₁
  cases h₂
  cases h₃
  cases h₄
  obtain ⟨w', hp', hB, hC, hD, hnat⟩ := pack_red s₁.params.chroma.table
  rw [rgb2ypp_red, hp'] at hp
  cases hp
  obtain rfl : word = w := by rw [hw, ← hnat, BitVec.ofNat_toNat, BitVec.setWidth_eq]
  have hone : ws = [word] := by
    obtain ⟨v, rfl⟩ := List.length_eq_one_iff.mp hwl
    cases hword
    rfl
  refine ⟨?_, fun hr₂ => ?_⟩
  · rw [exec_encode_of_eq_ok hr he, hone]
    rfl
  · obtain ⟨q, hq⟩ := unpack_of_no_detail hB hC hD s₂.params.chroma.table
    exact ⟨q, by rw [exec_unpack hr₂, hq]⟩

/-! ### DECODE -/

/-- DECODE delivers what `decodeImage` computes, its error status included. -/
theorem exec_decode (hr : running s (.stream st w h)) :
    exec .decode s = .next (s.finish ((decodeImage s.params.chroma.table s.params.rgboW st w h).map
      fun out => .raster (.rgbOut out.1) out.2.1 out.2.2)) :=
  exec_of_running hr rfl

theorem exec_decode_of_eq_ok {px : List RgbOut} {W H : Nat} (hr : running s (.stream st w h))
    (hd : decodeImage s.params.chroma.table s.params.rgboW st w h = .ok (px, W, H)) :
    exec .decode s = .next (answered s (.raster (.rgbOut px) W H)) := by
  rw [exec_decode hr, hd]
  rfl

/-- Settles O59: the two checks of R206, then `decodeImage_spec` with the bytes of each word (`getElem?_wordsOf`). -/
theorem decodeImageRaster : Obligations.DecodeImageRaster := by
  refine ⟨by decide, fun s st w h hr => ⟨fun hl => ?_, fun hl hn => ?_, fun hl ha => ?_⟩⟩
  · rw [exec_decode hr, decodeImage_of_length_mod hl]
    rfl
  · rw [exec_decode hr, decodeImage_of_count hl hn]
    rfl
  · obtain ⟨px, hd, hpl, hpx⟩ := decodeImage_spec (table_lawful s.params.chroma) (admissible_iff.mp ha) hl
    refine ⟨px, exec_decode_of_eq_ok hr hd, hpl, ?_⟩
    rintro i j k b0 b1 b2 b3 hi hj rfl h₀ h₁ h₂ h₃
    obtain ⟨word, hword, hp⟩ := hpx i hi j hj
    cases hword.symm.trans (getElem?_wordsOf st _ b0 b1 b2 b3 h₀ h₁ h₂ h₃)
    exact ⟨_, hp, truncated_trunc _, truncated_trunc _, truncated_trunc _⟩

/-- Settles O60: the stream of the even part has one word for each Block of its dimensions, which are even already. -/
theorem decodeAfterEncode : Obligations.DecodeAfterEncode := by
  intro s₁ s₂ px w h hl hr ha
  obtain ⟨ws, he, hwl, -⟩ := encodeImage_spec s₁.params.chroma.table hl
  refine ⟨streamOf ws, _, _, exec_encode_of_eq_ok hr he, rfl, rfl, fun hr₂ => ?_⟩
  have hlen : (streamOf ws).length = 4 * ((evenTrunc w / 2) * (evenTrunc h / 2)) := by
    rw [length_streamOf, hwl, evenTrunc_half, evenTrunc_half]
  obtain ⟨out, hd, hol, -⟩ := decodeImage_spec (table_lawful s₂.params.chroma) (admissible_iff.mp ha) hlen
  rw [evenTrunc_of_even (evenTrunc_even w), evenTrunc_of_even (evenTrunc_even h)] at hd hol
  exact ⟨out, exec_decode_of_eq_ok hr₂ hd, hol⟩

/-! ### The output port -/

/-- A response with a result is that of a computation that gave it. -/
theorem eq_ok_of_response {x : Except Error Payload} {a : Response} {p : Payload}
    (hresp : (s.finish x).responses = s.responses ++ [a]) (ha : a.res = some p) : x = .ok p := by
  rw [finish_responses] at hresp
  obtain rfl : responseOf x = a := by simpa using hresp
  cases x with
  | ok q => cases ha; rfl
  | error e => cases ha

/-- The four bytes of a word of the stream (R43, R44). -/
theorem bytes_of_getElem?_wordsOf {k : Nat} {word : Codeword} (hword : (wordsOf st)[k]? = some word) :
    ∃ b0 b1 b2 b3 : Byte, st[4 * k]? = some b0 ∧ st[4 * k + 1]? = some b1 ∧ st[4 * k + 2]? = some b2 ∧
      st[4 * k + 3]? = some b3 ∧ word = b0 ++ b1 ++ b2 ++ b3 := by
  obtain ⟨hk, -⟩ := List.getElem?_eq_some_iff.mp hword
  rw [length_wordsOf] at hk
  have hbyte : ∀ d < 4, ∃ b, st[4 * k + d]? = some b := fun d hd => ⟨_, List.getElem?_eq_getElem (by omega)⟩
  obtain ⟨b0, h₀⟩ := hbyte 0 (by decide)
  obtain ⟨b1, h₁⟩ := hbyte 1 (by decide)
  obtain ⟨b2, h₂⟩ := hbyte 2 (by decide)
  obtain ⟨b3, h₃⟩ := hbyte 3 (by decide)
  cases hword.symm.trans (getElem?_wordsOf st k b0 b1 b2 b3 h₀ h₁ h₂ h₃)
  exact ⟨b0, b1, b2, b3, h₀, h₁, h₂, h₃, rfl⟩

/-- Settles O18: F2RGB delivers only what fits (`f2rgb_eq_ok_iff`), and DECODE runs it on every pixel (`decodeImage_of_ok`). -/
theorem outputChannelsFitThePort : Obligations.OutputChannelsFitThePort := by
  intro s t n a hport hn hresp
  constructor
  · intro q p hr hex hres
    rw [exec_f2rgb hr] at hex
    cases hex
    obtain ⟨p', hok, hp'⟩ := map_eq_ok_iff.mp (eq_ok_of_response hresp hres)
    cases hp'
    obtain ⟨rfl, hfit⟩ := f2rgb_eq_ok_iff.mp hok
    rw [hport] at hfit
    exact ⟨(rgbFits_some_iff hn).mp hfit, truncated_trunc _, truncated_trunc _, truncated_trunc _⟩
  · intro st w h px W H hr hex hres
    rw [exec_decode hr] at hex
    cases hex
    obtain ⟨⟨px', W', H'⟩, hok, hp'⟩ := map_eq_ok_iff.mp (eq_ok_of_response hresp hres)
    cases hp'
    obtain ⟨-, -, hpl, -, hpx⟩ := decodeImage_of_ok hok
    rw [hport] at hpx
    refine ⟨fun p hp => ?_, fun i j hi hj => ?_⟩
    · obtain ⟨i, hi, j, hj, hat⟩ := mem_raster hpl hp
      obtain ⟨word, -, hat', hfit⟩ := hpx i hi j hj
      cases hat.symm.trans hat'
      exact (rgbFits_some_iff hn).mp hfit
    · obtain ⟨word, hword, hat, -⟩ := hpx i hi j hj
      obtain ⟨b0, b1, b2, b3, h₀, h₁, h₂, h₃, rfl⟩ := bytes_of_getElem?_wordsOf hword
      exact ⟨_, hat, _, b0, b1, b2, b3, _, rfl, h₀, h₁, h₂, h₃, rfl, truncated_trunc _, truncated_trunc _,
        truncated_trunc _⟩

end Sys2Proof.Proofs
end
